-- ==== Sys2Proof/Word.lean ====
section
/-! DEFINITION. The word types of the LogAtoB core (spec/00_scope.md rule R5, spec/10_state.md rule R19). -/

namespace Sys2Proof

/-- What a data port carries: `WMAX` bits, held in 64 (R6, R19). On an instance whose `WMAX` is 32 the upper half of
every port is zero; that is the invariant `Sys2Proof.Safety.PortsFit`. -/
abbrev PortWord := BitVec 64

/-- The command word of the `cmd` port, 11 bits (R19, R38). -/
abbrev Cmd := BitVec 11

/-- The shift distance field `j`, 6 bits, unsigned (R39, R42). -/
abbrev Distance := BitVec 6

/-- The width tag of a command, `WidthTag` of R5; `w64` is the optional extension (R6, R41). -/
inductive WidthTag
  | w8
  | w16
  | w32
  | w64
deriving DecidableEq, Repr

end Sys2Proof
end

