-- ==== Sys2Proof/Config.lean ====
section
/-! DEFINITION. What is fixed for one instance of the block: the parameter `HAS_W64` (spec/00_scope.md rule R6). -/

namespace Sys2Proof

/-- The one parameter an instance is built with (R6). The spec leaves it open with default `false`; the model keeps it in
the state as a value no step writes, so that every statement is about both kinds of instance. -/
structure Config where
  hasW64 : Bool
deriving DecidableEq, Repr

/-- The parameter's default (R6). -/
def Config.standard : Config := { hasW64 := false }

/-- The supported set `W` of R6, as a test on width tags. -/
def Config.supports (c : Config) : WidthTag → Bool
  | .w8 => true
  | .w16 => true
  | .w32 => true
  | .w64 => c.hasW64

/-- `WMAX`, the physical width of every data port (R6). -/
def Config.wmax (c : Config) : Nat := if c.hasW64 then 64 else 32

end Sys2Proof
end

