-- ==== Sys2Proof/Syntax.lean ====
section
/-! DEFINITION. The commands of the block: one constructor for each row of spec/opcode_table.json (spec/30_encoding.md
rules R39 and R40). -/

namespace Sys2Proof

/-- One decoded command. Every constructor carries the width tag and the distance field of its command word, because every
word has both (R39); only `secShl` reads the distance (R23), and `reserved` uses neither (R45). -/
inductive Instr
  /-- `A2B.G`, Goubin arithmetic to Boolean (R55). -/
  | a2bG (w : WidthTag) (j : Distance)
  /-- `B2A.G`, Goubin Boolean to arithmetic (R58). -/
  | b2aG (w : WidthTag) (j : Distance)
  /-- `SECAND`, masked AND (R64). -/
  | secAnd (w : WidthTag) (j : Distance)
  /-- `SECXOR`, masked XOR (R66). -/
  | secXor (w : WidthTag) (j : Distance)
  /-- `SECSHL`, masked left shift by `j` (R68). -/
  | secShl (w : WidthTag) (j : Distance)
  /-- `A2B.KS`, Kogge-Stone arithmetic to Boolean (R80). -/
  | a2bKs (w : WidthTag) (j : Distance)
  /-- `ADD.KS`, Kogge-Stone masked addition (R83). -/
  | addKs (w : WidthTag) (j : Distance)
  /-- The reserved operation code 7, which selects no operation and raises `ERR_OP` (R45). -/
  | reserved (w : WidthTag) (j : Distance)
deriving DecidableEq, Repr

/-- The width tag of a command. -/
def Instr.width : Instr → WidthTag
  | .a2bG w _ | .b2aG w _ | .secAnd w _ | .secXor w _ | .secShl w _ | .a2bKs w _ | .addKs w _ | .reserved w _ => w

/-- The distance field of a command. -/
def Instr.distance : Instr → Distance
  | .a2bG _ j | .b2aG _ j | .secAnd _ j | .secXor _ j | .secShl _ j | .a2bKs _ j | .addKs _ j | .reserved _ j => j

end Sys2Proof
end

