-- ==== Sys2Proof/WellFormed.lean ====
section
/-! DEFINITION. Which commands the host may send (spec/70_reset_and_hazards.md rule R117 item a) and which of the spellings of
a command an assembler emits (spec/30_encoding.md rule R49). Nothing here stops a step: the block answers every command. -/

namespace Sys2Proof

/-- The command's width is in the supported set `W` of the configuration (R6, R46, R117 item a). -/
def Instr.widthSupported (c : Config) (i : Instr) : Bool := c.supports i.width

/-- The command selects one of the seven operations (R45, R117 item a). -/
def Instr.selectsOperation : Instr → Bool
  | .a2bG _ _ | .b2aG _ _ | .secAnd _ _ | .secXor _ _ | .secShl _ _ | .a2bKs _ _ | .addKs _ _ => true
  | .reserved _ _ => false

/-- The distance field is zero unless the operation reads it: what an assembler emits (R47, R49). -/
def Instr.canonicalDistance : Instr → Bool
  | .secShl _ _ => true
  | .a2bG _ j | .b2aG _ j | .secAnd _ j | .secXor _ j | .a2bKs _ j | .addKs _ j | .reserved _ j => j == 0

/-- What the host is obliged to send (R117 item a): exactly the commands that leave `err` at 0. -/
def Instr.legal (c : Config) (i : Instr) : Bool := i.widthSupported c && i.selectsOperation

/-- A well-formed command: a legal one in the spelling of R49. -/
def Instr.wellFormed (c : Config) (i : Instr) : Bool := i.legal c && i.canonicalDistance

end Sys2Proof
end

