-- ==== Sys2Proof/Decode.lean ====
section
/-! DEFINITION. The command format `CMD` (spec/30_encoding.md rules R38 to R42, R45, R52): fields, decoder, encoder, and the
machine-readable opcode table. -/

namespace Sys2Proof

/-- `cmd[2:0]`, the operation field (R39). -/
def opField (c : Cmd) : BitVec 3 := c.extractLsb' 0 3

/-- `cmd[4:3]`, the width tag field (R39). -/
def wtagField (c : Cmd) : BitVec 2 := c.extractLsb' 3 2

/-- `cmd[10:5]`, the distance field (R39). -/
def distanceField (c : Cmd) : Distance := c.extractLsb' 5 6

/-- The width a tag names, `w = 8 · 2^wtag` (R41). -/
def WidthTag.bits : WidthTag → Nat
  | .w8 => 8
  | .w16 => 16
  | .w32 => 32
  | .w64 => 64

/-- The code of a width tag (R41). -/
def WidthTag.code : WidthTag → BitVec 2
  | .w8 => 0
  | .w16 => 1
  | .w32 => 2
  | .w64 => 3

/-- The width tag of a code; every code names one (R41). -/
def WidthTag.ofCode (b : BitVec 2) : WidthTag :=
  match b.toNat with
  | 0 => .w8
  | 1 => .w16
  | 2 => .w32
  | _ => .w64

/-- The operation code of a command (R40, R45). -/
def Instr.opcode : Instr → BitVec 3
  | .a2bG _ _ => 0
  | .b2aG _ _ => 1
  | .secAnd _ _ => 2
  | .secXor _ _ => 3
  | .secShl _ _ => 4
  | .a2bKs _ _ => 5
  | .addKs _ _ => 6
  | .reserved _ _ => 7

/-- The decoder, total on the 2048 command words (R40, R41, R45, R47): code 7 is the reserved row, and the width tag is
decoded whether or not the instance supports it (R46 is the block's answer, not a decoding failure). -/
def decode (c : Cmd) : Instr :=
  let w := WidthTag.ofCode (wtagField c)
  let j := distanceField c
  match (opField c).toNat with
  | 0 => .a2bG w j
  | 1 => .b2aG w j
  | 2 => .secAnd w j
  | 3 => .secXor w j
  | 4 => .secShl w j
  | 5 => .a2bKs w j
  | 6 => .addKs w j
  | _ => .reserved w j

/-- Why a number is not a command word. -/
inductive DecodeError
  /-- The number has a bit above bit 10; the `cmd` port has 11 wires (R19, R38). Safe: no such command exists. -/
  | beyondCommandPort
deriving DecidableEq, Repr

/-- The command word a number stands for, rejecting by name what does not fit the port (R38, R39). -/
def decodeWord (n : Nat) : Except DecodeError Instr :=
  if n < 2 ^ 11 then .ok (decode (BitVec.ofNat 11 n)) else .error .beyondCommandPort

/-- The decoder on an opcode-table word: bit 0 is `cmd[0]`. The table gives every row 11 bits, so the size is not used, and a
word with a bit above bit 10 is refused. -/
def decodeTableWord (_nbits w : Nat) : Option Instr :=
  match decodeWord w with
  | .ok i => some i
  | .error _ => none

/-- The encoder: `j` in the six upper bits, the width tag below it, the operation lowest, `cmd = j·32 + wtag·8 + op` (R39). -/
def encode (i : Instr) : Cmd := i.distance ++ i.width.code ++ i.opcode

/-- One row of spec/opcode_table.json (R52): the mnemonic and the pattern over the 11-bit command word. -/
structure OpcodeRow where
  mnemonic : String
  mask : Cmd
  pattern : Cmd
deriving DecidableEq, Repr

/-- spec/opcode_table.json: the seven operations and the reserved row (R40, R45, R52). -/
def opcodeTable : List OpcodeRow :=
  [⟨"A2B.G", 0x007, 0x000⟩, ⟨"B2A.G", 0x007, 0x001⟩, ⟨"SECAND", 0x007, 0x002⟩, ⟨"SECXOR", 0x007, 0x003⟩,
   ⟨"SECSHL", 0x007, 0x004⟩, ⟨"A2B.KS", 0x007, 0x005⟩, ⟨"ADD.KS", 0x007, 0x006⟩, ⟨"RESERVED", 0x007, 0x007⟩]

/-- A command word matches a row of the table. -/
def OpcodeRow.selects (r : OpcodeRow) (c : Cmd) : Bool := (c &&& r.mask) == r.pattern

/-- The mnemonic of a command, as the opcode table spells it (R40, R52). -/
def Instr.mnemonic : Instr → String
  | .a2bG _ _ => "A2B.G"
  | .b2aG _ _ => "B2A.G"
  | .secAnd _ _ => "SECAND"
  | .secXor _ _ => "SECXOR"
  | .secShl _ _ => "SECSHL"
  | .a2bKs _ _ => "A2B.KS"
  | .addKs _ _ => "ADD.KS"
  | .reserved _ _ => "RESERVED"

end Sys2Proof
end

