-- ==== Sys2Proof/Machine/Probe.lean ====
section
/-! DEFINITION. Wires, netlist lines and the probe set (spec/43_security_model.md rule R90, spec/42_kogge_stone.md rule R87,
spec/00_scope.md section 5): every line of an operation's pseudocode is one operator driving one named wire. -/

namespace Sys2Proof.Machine

/-- The wires inside a masked gate (R64, R66, R68). -/
inductive GateWire
  | n0 | n1 | n2 | n3 | n4 | n5 | n6
  | q0
  | h0 | h1 | h2
  | z1
deriving DecidableEq, Repr

/-- The five gate positions of a prefix stage: `HG`, `U`, `G`, `HP`, `PA` (R75). -/
inductive Slot
  | hg | u | g | hp | pa
deriving DecidableEq, Repr

/-- Where a gate stands: on its own, or as a named part of a larger operation (R75, R77, R83). -/
inductive Site
  /-- The operation is the gate itself; its wires have no prefix. -/
  | top
  /-- The gate `P0` of `ADD.KS`. -/
  | p0
  /-- The gate `GA` of `ADD.KS`. -/
  | ga
  /-- The gate `Z` of `ADD.KS`. -/
  | z
  /-- A gate of full round `r<k>`. -/
  | round (k : Nat) (slot : Slot)
  /-- A gate of the final step `f`. -/
  | last (slot : Slot)
deriving DecidableEq, Repr

/-- The named wires of the seven operations (R55, R58, R64, R66, R68, R75, R77, R80, R83). The operations' probe sets are
separate name spaces (R87), so operations that use one name share one constructor. -/
inductive Wire
  /-- A wire of a gate. The result `z1` of `ADD.KS` is `gate top z1`. -/
  | gate (site : Site) (g : GateWire)
  /-- `r<k>.P1` and `r<k>.P2`. -/
  | roundP1 (k : Nat)
  | roundP2 (k : Nat)
  /-- `i0` to `i8` of `A2B.G`. -/
  | i (k : Nat)
  /-- `k<k>.c0` to `k<k>.c4` of `A2B.G`. -/
  | c (k m : Nat)
  /-- `x1` of `A2B.G` and `A2B.KS`. -/
  | x1
  /-- `T0`, `T1`, `T2`, `A0`, `A1`, `A` of `B2A.G`. -/
  | capT0 | capT1 | capT2 | capA0 | capA1 | capA
  /-- `g1` of `B2A.G` and of `A2B.KS`. -/
  | g1
  /-- `p0`, `P0`, `g0`, `g2`, `g3` of `A2B.KS`. -/
  | p0 | capP0 | g0 | g2 | g3
  /-- `G0` of both Kogge-Stone operations; `g4` of `ADD.KS`. -/
  | capG0 | g4
  /-- `e0`, `e1`, `e2` of both Kogge-Stone operations. -/
  | e0 | e1 | e2
deriving DecidableEq, Repr

/-- The spec's spelling of a gate wire. -/
def GateWire.name : GateWire → String
  | .n0 => "n0" | .n1 => "n1" | .n2 => "n2" | .n3 => "n3" | .n4 => "n4" | .n5 => "n5" | .n6 => "n6"
  | .q0 => "q0"
  | .h0 => "h0" | .h1 => "h1" | .h2 => "h2"
  | .z1 => "z1"

/-- The spec's spelling of a gate position. -/
def Slot.name : Slot → String
  | .hg => "HG" | .u => "U" | .g => "G" | .hp => "HP" | .pa => "PA"

/-- The prefix a gate's wires carry, with its dot (spec/00_scope.md section 5). -/
def Site.stem : Site → String
  | .top => ""
  | .p0 => "P0."
  | .ga => "GA."
  | .z => "Z."
  | .round k slot => "r" ++ toString k ++ "." ++ slot.name ++ "."
  | .last slot => "f." ++ slot.name ++ "."

/-- The wire's name as the spec writes it (R55, R87, R90). -/
def Wire.name : Wire → String
  | .gate site g => site.stem ++ g.name
  | .roundP1 k => "r" ++ toString k ++ ".P1"
  | .roundP2 k => "r" ++ toString k ++ ".P2"
  | .i k => "i" ++ toString k
  | .c k m => "k" ++ toString k ++ ".c" ++ toString m
  | .x1 => "x1"
  | .capT0 => "T0" | .capT1 => "T1" | .capT2 => "T2" | .capA0 => "A0" | .capA1 => "A1" | .capA => "A"
  | .g1 => "g1"
  | .p0 => "p0" | .capP0 => "P0" | .g0 => "g0" | .g2 => "g2" | .g3 => "g3"
  | .capG0 => "G0" | .g4 => "g4"
  | .e0 => "e0" | .e1 => "e1" | .e2 => "e2"

/-- The operators of the netlist (spec/00_scope.md section 5; the columns of R128). -/
inductive GateOp
  | shl
  | and
  | xor
  | sub
deriving DecidableEq, Repr

/-- One line of an operation's pseudocode, evaluated: the wire it drives, its one operator, and the settled value (R90, R91). -/
structure Line (w : Nat) where
  wire : Wire
  op : GateOp
  val : BitVec w
deriving DecidableEq, Repr

/-- An operation's netlist, evaluated: its lines in order and the two results `r0`, `r1` of R51 (`r1` is 0 for an operation
with one result). -/
structure Net (w : Nat) where
  lines : List (Line w)
  r0 : BitVec w
  r1 : BitVec w
deriving DecidableEq, Repr

/-- The state of the `A2B.G` recursion after some rounds: its lines so far and `T` (R55). -/
structure GoubinStage (w : Nat) where
  lines : List (Line w)
  t : BitVec w
deriving DecidableEq, Repr

/-- A stage boundary of the prefix network: the lines so far, the propagate word and the generate word (R74, R75). -/
structure PrefixStage (w : Nat) where
  lines : List (Line w)
  p : BitVec w
  g : BitVec w
deriving DecidableEq, Repr

/-- A wire of the probe set as the state shows it: its name and its value, zero-extended to a port word. -/
structure Probe where
  wire : Wire
  value : PortWord
deriving DecidableEq, Repr

/-- The line `n = a ^ b`. -/
def xorLine {w : Nat} (n : Wire) (a b : BitVec w) : Line w := ⟨n, .xor, a ^^^ b⟩

/-- The line `n = a & b`. -/
def andLine {w : Nat} (n : Wire) (a b : BitVec w) : Line w := ⟨n, .and, a &&& b⟩

/-- The line `n = a -w b`. -/
def subLine {w : Nat} (n : Wire) (a b : BitVec w) : Line w := ⟨n, .sub, a - b⟩

/-- The line `n = shl_w(a, j)`: `(a · 2^j) mod 2^w`, zero when `j ≥ w` (spec/00_scope.md section 5). -/
def shlLine {w : Nat} (n : Wire) (a : BitVec w) (j : Nat) : Line w := ⟨n, .shl, a <<< j⟩

/-- The names of a netlist's wires, as the spec spells them, in probe-set order (R90). -/
def Net.names {w : Nat} (net : Net w) : List String := net.lines.map fun l => l.wire.name

/-- The values of a netlist's wires, in probe-set order. -/
def Net.values {w : Nat} (net : Net w) : List (BitVec w) := net.lines.map Line.val

/-- A netlist's wires with their operators, in probe-set order: what does not depend on the data (R127). -/
def Net.shape {w : Nat} (net : Net w) : List (Wire × GateOp) := net.lines.map fun l => (l.wire, l.op)

/-- How many lines of a netlist use an operator (R128). -/
def Net.count {w : Nat} (net : Net w) (op : GateOp) : Nat := net.lines.countP fun l => l.op == op

/-- The probe set as the state shows it. -/
def Net.probes {w : Nat} (net : Net w) : List Probe := net.lines.map fun l => ⟨l.wire, l.val.setWidth 64⟩

end Sys2Proof.Machine
end

