-- ==== Sys2Proof/Machine/State.lean ====
section
/-! DEFINITION. The state of the model: one evaluation as the ports and wires show it (spec/10_state.md rules R13 to R27). The
block stores nothing between evaluations (R15); what the fields hold is what the environment drives, what the block drives
for it, and the values the internal wires have settled to. -/

namespace Sys2Proof.Machine

/-- The ports of R19, the instance's parameter (R6) and the probe set of the evaluation (R90). -/
structure State where
  /-- The instance's parameter `HAS_W64`; no step writes it. -/
  cfg : Config
  /-- The `cmd` input port. -/
  cmd : Cmd
  /-- The input ports `in[0]` to `in[5]`. -/
  in0 : PortWord
  in1 : PortWord
  in2 : PortWord
  in3 : PortWord
  in4 : PortWord
  in5 : PortWord
  /-- The output ports `out[0]` and `out[1]`. -/
  out0 : PortWord
  out1 : PortWord
  /-- The `err` output port: bit 0 unsupported width, bit 1 reserved operation. -/
  err : BitVec 2
  /-- The wires of the evaluation in probe-set order; empty when `err` is not 0. -/
  wires : List Probe
deriving DecidableEq, Repr

/-- Why the machine would stop. The block has no such case: every command word has a defined result (R25, R51), an error is
the value of an output port and not a trap (R106), and no behaviour is stuck. The type has no constructor. Safe. -/
inductive Fault
deriving DecidableEq, Repr

/-- Why the model would have no meaning for an instruction. -/
inductive Refusal
  /-- Raised by an arm of `exec` for an instruction without a meaning; no arm raises it. Safe. -/
  | notModelled (mnemonic : String)
deriving DecidableEq, Repr

/-- The wire names of the probe set of `A2B.G` at width 8 (R55), for the reset state. -/
def resetWireNames : List Wire :=
  (List.range 9).map Wire.i ++ (List.range 7).flatMap (fun k => (List.range 5).map (Wire.c (k + 1))) ++ [.x1]

/-- The machine at power-up. There is no reset and nothing to reset (R27, R114); the outputs are `eval` of whatever is on the
input ports (R115). DESIGN CHOICE (notes/assumptions/2.md): the environment holds every input port at 0, so that the command
is `A2B.G.8` of zeros, whose outputs and 45 wires are all 0. The parameter has its default (R6). -/
def State.reset : State where
  cfg := Config.standard
  cmd := 0
  in0 := 0
  in1 := 0
  in2 := 0
  in3 := 0
  in4 := 0
  in5 := 0
  out0 := 0
  out1 := 0
  err := 0
  wires := resetWireNames.map fun n => ⟨n, 0⟩

end Sys2Proof.Machine
end

