-- ==== Sys2Proof/Machine/Flags.lean ====
section
/-! DEFINITION. The `err` output, the block's only status (spec/10_state.md rule R18, spec/60_exceptions.md rules R102 to R105). -/

namespace Sys2Proof.Machine

/-- `ERR_WIDTH`, `err[0]`: the width tag names a width the instance does not support (R102). -/
def errWidth (c : Config) (w : WidthTag) : Bool := !c.supports w

/-- The two-bit code: `err[1]` is `ERR_OP`, `err[0]` is `ERR_WIDTH` (R51, R104); each cause has its own bit (R105). -/
def errCode (errOp errWidth : Bool) : BitVec 2 := BitVec.ofBool errOp ++ BitVec.ofBool errWidth

end Sys2Proof.Machine
end

