-- ==== Sys2Proof/Machine/Operands.lean ====
section
/-! DEFINITION. Operand and result ports (spec/10_state.md rules R21 and R22, spec/30_encoding.md rules R43 and R44). -/

namespace Sys2Proof.Machine

/-- The names of the input data ports (R19). -/
inductive InPort
  | in0 | in1 | in2 | in3 | in4 | in5
deriving DecidableEq, Repr

/-- The word on an input port. -/
def State.port (s : State) : InPort → PortWord
  | .in0 => s.in0
  | .in1 => s.in1
  | .in2 => s.in2
  | .in3 => s.in3
  | .in4 => s.in4
  | .in5 => s.in5

/-- The environment drives one input port. -/
def State.setPort (s : State) (k : InPort) (v : PortWord) : State :=
  match k with
  | .in0 => { s with in0 := v }
  | .in1 => { s with in1 := v }
  | .in2 => { s with in2 := v }
  | .in3 => { s with in3 := v }
  | .in4 => { s with in4 := v }
  | .in5 => { s with in5 := v }

/-- An operand: the low `w` bits of its port, the bits above ignored (R21). -/
def State.operand (s : State) (k : InPort) (w : Nat) : BitVec w := (s.port k).setWidth w

/-- A result on an output port: zero-extended (R22). -/
def driveWord {w : Nat} (r : BitVec w) : PortWord := r.setWidth 64

/-- The input ports a command reads (R43); `SECXOR` does not read the port of its `s` argument (R23, R66), and the
reserved code reads none (R45). -/
def Instr.reads : Instr → List InPort
  | .a2bG _ _ => [.in0, .in1, .in2]
  | .b2aG _ _ => [.in0, .in1, .in2]
  | .secAnd _ _ => [.in0, .in1, .in2, .in3, .in4]
  | .secXor _ _ => [.in0, .in1, .in3]
  | .secShl _ _ => [.in0, .in1, .in2]
  | .a2bKs _ _ => [.in0, .in1, .in2, .in3, .in4]
  | .addKs _ _ => [.in0, .in1, .in2, .in3, .in4, .in5]
  | .reserved _ _ => []

end Sys2Proof.Machine
end

