-- ==== Sys2Proof/Machine/Ops.lean ====
section
/-! DEFINITION. The shared operations over the state: settling an evaluation, raising `Err`, and the width's round counts. -/

namespace Sys2Proof.Machine

/-- `RG(w)`, the rounds of `A2B.G` (R7). -/
def goubinRoundCount (w : Nat) : Nat := w - 1

/-- `n(w) = ⌈log2 w⌉`, the combination steps of the prefix network (R7, R76). -/
def prefixLevels (w : Nat) : Nat := Nat.clog 2 w

/-- The outputs and wires of an evaluation without error: results zero-extended on the output ports, `err` 0, and the
probe set (R22, R44, R51, R90). -/
def State.settle {w : Nat} (s : State) (net : Net w) : State :=
  { s with out0 := driveWord net.r0, out1 := driveWord net.r1, err := 0, wires := net.probes }

/-- `raise Err(c)`: `err` is the code, both outputs are 0, the probe set is empty, and nothing else happens (R104). This is the
block's whole exception entry; there is no return from it, and the next evaluation is unaffected (R106). -/
def State.raiseErr (s : State) (c : BitVec 2) : State :=
  { s with out0 := 0, out1 := 0, err := c, wires := [] }

/-- One evaluation of an operation at a width: the width is checked first, and the netlist is evaluated only when the instance
supports it (R46, R51, R102). -/
def evaluate (w : WidthTag) (net : Net w.bits) (s : State) : Host.Outcome State Fault Refusal :=
  if errWidth s.cfg w then .next (s.raiseErr (errCode false true)) else .next (s.settle net)

end Sys2Proof.Machine
end

