-- ==== Sys2Proof/Machine/Goubin.lean ====
section
/-! DEFINITION. The Goubin converter A2B.G and B2A.G (spec/40_goubin.md). Which body has which name follows conflict C1 of
spec/90_conflicts.md. -/

namespace Sys2Proof.Machine

/-- Round `k` of A2B.G, from `T[k-1]` to `T[k]`; `om` is the wire `i8` (R55). -/
def goubinRound {w : Nat} (k : Nat) (a r om t : BitVec w) : GoubinStage w :=
  let c0 := andLine (.c k 0) t r
  let c1 := xorLine (.c k 1) c0.val om
  let c2 := andLine (.c k 2) t a
  let c3 := xorLine (.c k 3) c1.val c2.val
  let c4 := shlLine (.c k 4) c3.val 1
  ⟨[c0, c1, c2, c3, c4], c4.val⟩

/-- The first rounds of A2B.G, unrolled (R14, R55). -/
def goubinRounds {w : Nat} (a r om t0 : BitVec w) : Nat → GoubinStage w
  | 0 => ⟨[], t0⟩
  | k + 1 =>
    let before := goubinRounds a r om t0 k
    let round := goubinRound (k + 1) a r om before.t
    ⟨before.lines ++ round.lines, round.t⟩

/-- The netlist of R55 with a number of rounds; the block has `w - 1` (`a2bG`), and R61 speaks of other numbers. -/
def a2bGWith {w : Nat} (rounds : Nat) (a r g : BitVec w) : Net w :=
  let i0 := shlLine (.i 0) g 1
  let i1 := xorLine (.i 1) g r
  let i2 := andLine (.i 2) g i1.val
  let i3 := xorLine (.i 3) i0.val a
  let i4 := xorLine (.i 4) g i3.val
  let i5 := andLine (.i 5) i4.val r
  let i6 := xorLine (.i 6) i2.val i5.val
  let i7 := andLine (.i 7) i0.val a
  let i8 := xorLine (.i 8) i6.val i7.val
  let stage := goubinRounds a r i8.val i0.val rounds
  let x1 := xorLine .x1 i3.val stage.t
  ⟨[i0, i1, i2, i3, i4, i5, i6, i7, i8] ++ stage.lines ++ [x1], x1.val, 0⟩

/-- The netlist of A2B.G (R7, R55). -/
def a2bG {w : Nat} (a r g : BitVec w) : Net w := a2bGWith (goubinRoundCount w) a r g

/-- The netlist of B2A.G (R58). -/
def b2aG {w : Nat} (x1 r g : BitVec w) : Net w :=
  let t0 := xorLine .capT0 x1 g
  let t1 := subLine .capT1 t0.val g
  let t2 := xorLine .capT2 t1.val x1
  let g1 := xorLine .g1 g r
  let a0 := xorLine .capA0 x1 g1.val
  let a1 := subLine .capA1 a0.val g1.val
  let a := xorLine .capA a1.val t2.val
  ⟨[t0, t1, t2, g1, a0, a1, a], a.val, 0⟩

/-- `A2B.G`: `A`, `R`, `g` on `in[0]` to `in[2]` (R43, R53, R55). -/
def execA2bG (w : WidthTag) (_j : Distance) (s : State) : Host.Outcome State Fault Refusal :=
  evaluate w (a2bG (s.operand .in0 w.bits) (s.operand .in1 w.bits) (s.operand .in2 w.bits)) s

/-- `B2A.G`: `x1`, `R`, `g` on `in[0]` to `in[2]` (R43, R53, R58). -/
def execB2aG (w : WidthTag) (_j : Distance) (s : State) : Host.Outcome State Fault Refusal :=
  evaluate w (b2aG (s.operand .in0 w.bits) (s.operand .in1 w.bits) (s.operand .in2 w.bits)) s

end Sys2Proof.Machine
end

