-- ==== Sys2Proof/Machine/Gates.lean ====
section
/-! DEFINITION. The masked primitive gates SECAND, SECXOR and SECSHL (spec/41_masked_gates.md). The order of the lines and the
association of every XOR chain are part of each definition (R71). -/

namespace Sys2Proof.Machine

/-- The netlist of SECAND at a site (R64). -/
def secAnd {w : Nat} (site : Site) (x1 y1 s t u : BitVec w) : Net w :=
  let n0 := andLine (.gate site .n0) x1 y1
  let n1 := xorLine (.gate site .n1) n0.val u
  let n2 := andLine (.gate site .n2) x1 t
  let n3 := xorLine (.gate site .n3) n1.val n2.val
  let n4 := andLine (.gate site .n4) y1 s
  let n5 := xorLine (.gate site .n5) n3.val n4.val
  let n6 := andLine (.gate site .n6) s t
  let z1 := xorLine (.gate site .z1) n5.val n6.val
  ⟨[n0, n1, n2, n3, n4, n5, n6, z1], z1.val, 0⟩

/-- The netlist of SECXOR at a site (R66); the argument `s` of the signature is read by no gate. -/
def secXor {w : Nat} (site : Site) (x1 y1 _s u : BitVec w) : Net w :=
  let q0 := xorLine (.gate site .q0) x1 y1
  let z1 := xorLine (.gate site .z1) q0.val u
  ⟨[q0, z1], z1.val, 0⟩

/-- The netlist of SECSHL at a site, distance `j` unreduced (R42, R68, R69). -/
def secShl {w : Nat} (site : Site) (x1 s t : BitVec w) (j : Nat) : Net w :=
  let h0 := shlLine (.gate site .h0) x1 j
  let h1 := xorLine (.gate site .h1) h0.val t
  let h2 := shlLine (.gate site .h2) s j
  let z1 := xorLine (.gate site .z1) h1.val h2.val
  ⟨[h0, h1, h2, z1], z1.val, 0⟩

/-- `SECAND`: `x1`, `y1`, `s`, `t`, `u` on `in[0]` to `in[4]` (R43, R64). -/
def execSecAnd (w : WidthTag) (_j : Distance) (s : State) : Host.Outcome State Fault Refusal :=
  evaluate w (secAnd .top (s.operand .in0 w.bits) (s.operand .in1 w.bits) (s.operand .in2 w.bits)
    (s.operand .in3 w.bits) (s.operand .in4 w.bits)) s

/-- `SECXOR`: `x1`, `y1`, `s`, `u` on `in[0]` to `in[3]` (R43, R66). -/
def execSecXor (w : WidthTag) (_j : Distance) (s : State) : Host.Outcome State Fault Refusal :=
  evaluate w (secXor .top (s.operand .in0 w.bits) (s.operand .in1 w.bits) (s.operand .in2 w.bits)
    (s.operand .in3 w.bits)) s

/-- `SECSHL`: `x1`, `s`, `t` on `in[0]` to `in[2]`, the distance in the command (R42, R43, R68). -/
def execSecShl (w : WidthTag) (j : Distance) (s : State) : Host.Outcome State Fault Refusal :=
  evaluate w (secShl .top (s.operand .in0 w.bits) (s.operand .in1 w.bits) (s.operand .in2 w.bits) j.toNat) s

end Sys2Proof.Machine
end

