-- ==== Sys2Proof/Machine/KoggeStone.lean ====
section
/-! DEFINITION. The Kogge-Stone masked converter and adder A2B.KS and ADD.KS on their shared prefix network
(spec/42_kogge_stone.md). -/

namespace Sys2Proof.Machine

/-- Full round `r<k>` at a distance: both halves read the round's input `P` (R75). -/
def prefixRound {w : Nat} (k distance : Nat) (p g s t u : BitVec w) : PrefixStage w :=
  let hg := secShl (.round k .hg) g s t distance
  let un := secAnd (.round k .u) p hg.r0 s t u
  let gn := secXor (.round k .g) un.r0 g s u
  let hp := secShl (.round k .hp) p s t distance
  let pa := secAnd (.round k .pa) p hp.r0 s t u
  let p1 := xorLine (.roundP1 k) pa.r0 s
  let p2 := xorLine (.roundP2 k) p1.val u
  ⟨hg.lines ++ un.lines ++ gn.lines ++ hp.lines ++ pa.lines ++ [p1, p2], p2.val, gn.r0⟩

/-- The first full rounds, at distances 1, 2, 4, … (R76). -/
def prefixRounds {w : Nat} (p g s t u : BitVec w) : Nat → PrefixStage w
  | 0 => ⟨[], p, g⟩
  | k + 1 =>
    let before := prefixRounds p g s t u k
    let round := prefixRound (k + 1) (2 ^ k) before.p before.g s t u
    ⟨before.lines ++ round.lines, round.p, round.g⟩

/-- The final step at a distance: the G half of a round; `P` is not updated (R77). -/
def prefixFinal {w : Nat} (distance : Nat) (p g s t u : BitVec w) : PrefixStage w :=
  let hg := secShl (.last .hg) g s t distance
  let un := secAnd (.last .u) p hg.r0 s t u
  let gn := secXor (.last .g) un.r0 g s u
  ⟨hg.lines ++ un.lines ++ gn.lines, p, gn.r0⟩

/-- The prefix network of width `w`: `n(w) - 1` full rounds and the final step at distance `2^(n(w)-1)` (R76). -/
def prefixNet {w : Nat} (p g s t u : BitVec w) : PrefixStage w :=
  let n := prefixLevels w
  let rounds := prefixRounds p g s t u (n - 1)
  let final := prefixFinal (2 ^ (n - 1)) rounds.p rounds.g s t u
  ⟨rounds.lines ++ final.lines, final.p, final.g⟩

/-- The netlist of A2B.KS (R80). -/
def a2bKs {w : Nat} (a r s t u : BitVec w) : Net w :=
  let p0 := xorLine .p0 a s
  let pInit := xorLine .capP0 p0.val r
  let g0 := xorLine .g0 a t
  let g1 := andLine .g1 g0.val r
  let g2 := xorLine .g2 s g1.val
  let g3 := andLine .g3 t r
  let gInit := xorLine .capG0 g2.val g3.val
  let net := prefixNet pInit.val gInit.val s t u
  let e0 := shlLine .e0 net.g 1
  let e1 := xorLine .e1 e0.val a
  let e2 := shlLine .e2 s 1
  let x1 := xorLine .x1 e1.val e2.val
  ⟨[p0, pInit, g0, g1, g2, g3, gInit] ++ net.lines ++ [e0, e1, e2, x1], x1.val, 0⟩

/-- The netlist of ADD.KS (R83); the second result is the operand mask `r` itself and adds no wire (R85). -/
def addKs {w : Nat} (x1 s y1 r t u : BitVec w) : Net w :=
  let pInit := secXor .p0 x1 y1 s r
  let ga := secAnd .ga x1 y1 s r u
  let g4 := xorLine .g4 ga.r0 s
  let gInit := xorLine .capG0 g4.val u
  let net := prefixNet pInit.r0 gInit.val s t u
  let z := secXor .z y1 x1 r s
  let e0 := shlLine .e0 net.g 1
  let e1 := xorLine .e1 z.r0 e0.val
  let e2 := shlLine .e2 s 1
  let z1 := xorLine (.gate .top .z1) e1.val e2.val
  ⟨pInit.lines ++ ga.lines ++ [g4, gInit] ++ net.lines ++ z.lines ++ [e0, e1, e2, z1], z1.val, r⟩

/-- `A2B.KS`: `A`, `r`, `s`, `t`, `u` on `in[0]` to `in[4]` (R43, R80). -/
def execA2bKs (w : WidthTag) (_j : Distance) (s : State) : Host.Outcome State Fault Refusal :=
  evaluate w (a2bKs (s.operand .in0 w.bits) (s.operand .in1 w.bits) (s.operand .in2 w.bits)
    (s.operand .in3 w.bits) (s.operand .in4 w.bits)) s

/-- `ADD.KS`: `x1`, `s`, `y1`, `r`, `t`, `u` on `in[0]` to `in[5]` (R43, R83). -/
def execAddKs (w : WidthTag) (_j : Distance) (s : State) : Host.Outcome State Fault Refusal :=
  evaluate w (addKs (s.operand .in0 w.bits) (s.operand .in1 w.bits) (s.operand .in2 w.bits)
    (s.operand .in3 w.bits) (s.operand .in4 w.bits) (s.operand .in5 w.bits)) s

end Sys2Proof.Machine
end

