-- ==== Sys2Proof/Machine/Reserved.lean ====
section
/-! DEFINITION. The reserved operation code (spec/30_encoding.md rule R45, spec/60_exceptions.md rules R103 to R105). -/

namespace Sys2Proof.Machine

/-- `op = 7`: `ERR_OP` for every width tag and distance, with `ERR_WIDTH` beside it when the width tag also names an
unsupported width; outputs 0 and no wires (R45, R103, R104, R105). -/
def execReserved (w : WidthTag) (_j : Distance) (s : State) : Host.Outcome State Fault Refusal :=
  .next (s.raiseErr (errCode true (errWidth s.cfg w)))

end Sys2Proof.Machine
end

