-- ==== Sys2Proof/Machine/Dispatch.lean ====
section
/-! DEFINITION. The meaning of every command: one arm for each row of spec/opcode_table.json. -/

namespace Sys2Proof.Machine

def exec (i : Instr) (s : State) : Host.Outcome State Fault Refusal :=
  match i with
  | .a2bG w j => Sys2Proof.Machine.execA2bG w j s
  | .b2aG w j => Sys2Proof.Machine.execB2aG w j s
  | .secAnd w j => Sys2Proof.Machine.execSecAnd w j s
  | .secXor w j => Sys2Proof.Machine.execSecXor w j s
  | .secShl w j => Sys2Proof.Machine.execSecShl w j s
  | .a2bKs w j => Sys2Proof.Machine.execA2bKs w j s
  | .addKs w j => Sys2Proof.Machine.execAddKs w j s
  | .reserved w j => Sys2Proof.Machine.execReserved w j s

end Sys2Proof.Machine
end

