-- ==== Sys2Proof/Machine/Step.lean ====
section
/-! DEFINITION. One step of the model is one evaluation (spec/10_state.md rule R16): the command on the `cmd` port is decoded
and evaluated on the operands of the same evaluation (R14, R38). -/

namespace Sys2Proof.Machine

/-- One evaluation of what the environment drives. The input ports are the environment's and stay as they are (R31, R123). -/
def step (s : State) : Host.Outcome State Fault Refusal := exec (decode s.cmd) s

/-- The environment drives an opcode-table word on the `cmd` port, which is all it takes for the next step to evaluate it:
there is no program and nothing is fetched (R14). Bits above bit 10 have no wire (R38). -/
def State.withFetchWord (s : State) (_nbits w : Nat) : State := { s with cmd := BitVec.ofNat 11 w }

end Sys2Proof.Machine
end

