-- ==== Sys2Proof/Machine/Eval.lean ====
section
/-! DEFINITION. The block as one function from input ports to output ports and wires: `eval` and `trace` as spec/30_encoding.md
rule R51 and spec/43_security_model.md rule R90 write them, and a host's sequence of evaluations (spec/10_state.md rule R26,
spec/20_memory.md rules R33 and R34). -/

namespace Sys2Proof.Machine

/-- One assignment of values to the input ports (R16, R19). -/
structure Stimulus where
  cmd : Cmd
  in0 : PortWord
  in1 : PortWord
  in2 : PortWord
  in3 : PortWord
  in4 : PortWord
  in5 : PortWord
deriving DecidableEq, Repr

/-- What the block drives for one assignment: the output ports (R16), and the probe set (R90). -/
structure Response where
  out0 : PortWord
  out1 : PortWord
  err : BitVec 2
  wires : List Probe
deriving DecidableEq, Repr

/-- The environment presents all inputs of an evaluation together (R31, R123). -/
def State.drive (s : State) (x : Stimulus) : State :=
  { s with cmd := x.cmd, in0 := x.in0, in1 := x.in1, in2 := x.in2, in3 := x.in3, in4 := x.in4, in5 := x.in5 }

/-- What stands on the input ports. -/
def State.stimulus (s : State) : Stimulus := ⟨s.cmd, s.in0, s.in1, s.in2, s.in3, s.in4, s.in5⟩

/-- What stands on the output ports and the wires. -/
def State.response (s : State) : Response := ⟨s.out0, s.out1, s.err, s.wires⟩

/-- The operation codes 0 to 6 on operands of width `w`, the `case` of R51; code 7 selects no operation (R45). -/
def evalNet (w : Nat) (op : BitVec 3) (j : Distance) (a0 a1 a2 a3 a4 a5 : BitVec w) : Net w :=
  match op.toNat with
  | 0 => a2bG a0 a1 a2
  | 1 => b2aG a0 a1 a2
  | 2 => secAnd .top a0 a1 a2 a3 a4
  | 3 => secXor .top a0 a1 a2 a3
  | 4 => secShl .top a0 a1 a2 j.toNat
  | 5 => a2bKs a0 a1 a2 a3 a4
  | 6 => addKs a0 a1 a2 a3 a4 a5
  | _ => ⟨[], 0, 0⟩

/-- `eval` of R51 with `trace` of R90: the error check first, on `cmd` and the parameter alone; then the operation at width
`8 << wtag` on the low bits of the ports. -/
def eval (hasW64 : Bool) (x : Stimulus) : Response :=
  let op := opField x.cmd
  let wtag := wtagField x.cmd
  let e0 := wtag == 3 && hasW64 == false
  let e1 := op == 7
  if e0 || e1 then ⟨0, 0, errCode e1 e0, []⟩
  else
    let w := 8 <<< wtag.toNat
    let net := evalNet w op (distanceField x.cmd) (x.in0.setWidth w) (x.in1.setWidth w) (x.in2.setWidth w)
      (x.in3.setWidth w) (x.in4.setWidth w) (x.in5.setWidth w)
    ⟨net.r0.setWidth 64, net.r1.setWidth 64, 0, net.probes⟩

/-- The netlist a command selects, on the operands that stand on the ports (R43, R51); the reserved code selects none (R45). -/
def netOf (i : Instr) (s : State) : Net i.width.bits :=
  match i with
  | .a2bG w _ => a2bG (s.operand .in0 w.bits) (s.operand .in1 w.bits) (s.operand .in2 w.bits)
  | .b2aG w _ => b2aG (s.operand .in0 w.bits) (s.operand .in1 w.bits) (s.operand .in2 w.bits)
  | .secAnd w _ => secAnd .top (s.operand .in0 w.bits) (s.operand .in1 w.bits) (s.operand .in2 w.bits)
      (s.operand .in3 w.bits) (s.operand .in4 w.bits)
  | .secXor w _ => secXor .top (s.operand .in0 w.bits) (s.operand .in1 w.bits) (s.operand .in2 w.bits)
      (s.operand .in3 w.bits)
  | .secShl w j => secShl .top (s.operand .in0 w.bits) (s.operand .in1 w.bits) (s.operand .in2 w.bits) j.toNat
  | .a2bKs w _ => a2bKs (s.operand .in0 w.bits) (s.operand .in1 w.bits) (s.operand .in2 w.bits)
      (s.operand .in3 w.bits) (s.operand .in4 w.bits)
  | .addKs w _ => addKs (s.operand .in0 w.bits) (s.operand .in1 w.bits) (s.operand .in2 w.bits)
      (s.operand .in3 w.bits) (s.operand .in4 w.bits) (s.operand .in5 w.bits)
  | .reserved _ _ => ⟨[], 0, 0⟩

/-- The code a command raises on an instance: one bit for each cause, 0 for neither (R102, R103, R105). -/
def errOf (c : Config) (i : Instr) : BitVec 2 := errCode (!i.selectsOperation) (errWidth c i.width)

/-- The answers an instance gives to a host's sequence of evaluations, one after the other on the same instance; a stop ends the
sequence (there is none, R25). -/
def session (s : State) : List Stimulus → List Response
  | [] => []
  | x :: xs =>
    match step (s.drive x) with
    | .next t => t.response :: session t xs
    | .fault _ => []
    | .refused _ => []

end Sys2Proof.Machine
end

