-- ==== Sys2Proof/Machine/Assembler.lean ====
section
/-! DEFINITION. The textual form of one evaluation, its other spellings and its pseudo-instructions (spec/30_encoding.md rules
R49 and R50). -/

namespace Sys2Proof.Machine

/-- One line of R49, parsed: the name before the width, the width, the operands in port order, and `#j` where it is given. -/
structure AsmLine where
  name : String
  width : WidthTag
  operands : List Nat
  distance : Option Nat
deriving DecidableEq, Repr

/-- The operation a mnemonic of R40 selects. -/
def operationNamed (name : String) : Option (WidthTag → Distance → Instr) :=
  if name = "A2B.G" then some .a2bG
  else if name = "B2A.G" then some .b2aG
  else if name = "SECAND" then some .secAnd
  else if name = "SECXOR" then some .secXor
  else if name = "SECSHL" then some .secShl
  else if name = "A2B.KS" then some .a2bKs
  else if name = "ADD.KS" then some .addKs
  else none

/-- The mnemonic that a function name of the source is another name of (R2, R50). -/
def mnemonicOfSourceName (name : String) : Option String :=
  if name = "arith_to_bool" then some "A2B.G"
  else if name = "bool_to_arith" then some "B2A.G"
  else if name = "SecAnd" then some "SECAND"
  else if name = "SecXor" then some "SECXOR"
  else if name = "SecShiftLeft" then some "SECSHL"
  else if name = "kogge_stone_arith_to_bool" then some "A2B.KS"
  else if name = "masked_add" then some "ADD.KS"
  else none

/-- The width a number names (R5, R41). -/
def widthOfNat (n : Nat) : Option WidthTag :=
  if n = 8 then some .w8
  else if n = 16 then some .w16
  else if n = 32 then some .w32
  else if n = 64 then some .w64
  else none

/-- The call form of R50: a function name of the source with its arguments, the width last; the two Goubin names take the random
word before the width, and `SecShiftLeft` its distance. -/
def AsmLine.ofCall (sourceName : String) (args : List Nat) : Option AsmLine :=
  match mnemonicOfSourceName sourceName, args.reverse with
  | some m, width :: rest =>
    match widthOfNat width with
    | none => none
    | some w =>
      if m = "SECSHL" then
        match rest with
        | j :: operands => some ⟨m, w, operands.reverse, some j⟩
        | [] => none
      else some ⟨m, w, rest.reverse, none⟩
  | _, _ => none

/-- How many operands a command's line lists: the arguments of the source's signature, `SECXOR`'s unread `s` among them (R43). -/
def Instr.arity : Instr → Nat
  | .a2bG _ _ => 3
  | .b2aG _ _ => 3
  | .secAnd _ _ => 5
  | .secXor _ _ => 4
  | .secShl _ _ => 3
  | .a2bKs _ _ => 5
  | .addKs _ _ => 6
  | .reserved _ _ => 0

/-- The expansions of `REMASK.w a, m, k` and `SHL.w a, #j` (R50, R72); every other line stands for itself. -/
def AsmLine.expand (l : AsmLine) : AsmLine :=
  match l.operands with
  | [a, m, k] => if l.name = "REMASK" then { l with name := "SECXOR", operands := [a, m, 0, k] } else l
  | [a] => if l.name = "SHL" then { l with name := "SECSHL", operands := [a, 0, 0] } else l
  | _ => l

/-- The distance field a line assembles to: `#j`, 0 to 63, for `SECSHL` and for nothing else; 0 for every other operation
(R42, R49). -/
def AsmLine.distanceField (l : AsmLine) (reads : Bool) : Option Distance :=
  match reads, l.distance with
  | true, some j => if j < 64 then some (BitVec.ofNat 6 j) else none
  | false, none => some 0
  | _, _ => none

/-- The evaluation a line asks for: its command word, and its operands on `in[0]`, `in[1]`, … with the other ports at 0. A line
with an unknown name, a wrong number of operands, an operand that does not fit the width, or a wrong distance asks for
none. -/
def AsmLine.assemble (line : AsmLine) : Option Stimulus :=
  let l := line.expand
  match operationNamed l.name with
  | none => none
  | some op =>
    match l.distanceField (op l.width 0 == .secShl l.width 0) with
    | none => none
    | some j =>
      let i := op l.width j
      if l.operands.length = Instr.arity i ∧ l.operands.all (· < 2 ^ l.width.bits) then
        let port (k : Nat) : PortWord := BitVec.ofNat 64 (l.operands.getD k 0)
        some ⟨encode i, port 0, port 1, port 2, port 3, port 4, port 5⟩
      else none

/-- A hexadecimal digit, as the spec writes it. -/
def hexDigit (c : Char) : Option Nat :=
  if '0' ≤ c ∧ c ≤ '9' then some (c.toNat - '0'.toNat)
  else if 'A' ≤ c ∧ c ≤ 'F' then some (c.toNat - 'A'.toNat + 10)
  else none

/-- A number in a base, most significant digit first. -/
def readDigits (base : Nat) : Nat → List Char → Option Nat
  | acc, [] => some acc
  | acc, c :: cs =>
    match hexDigit c with
    | some d => if d < base then readDigits base (acc * base + d) cs else none
    | none => none

/-- The tokens of a line: what stands between spaces and commas. DESIGN CHOICE (notes/assumptions/10.md): R49 writes a comma and a
space between operands and does not say what a line without the commas, or with more of them, does; here spaces and commas
separate alike, in any number and anywhere, so such a line assembles. No other character separates: a tab or `->` without
spaces about it is part of its token. -/
def tokensOf : List Char → List Char → List (List Char)
  | current, [] => if current = [] then [] else [current.reverse]
  | current, c :: cs =>
    if c = ' ' ∨ c = ',' then
      if current = [] then tokensOf [] cs else current.reverse :: tokensOf [] cs
    else tokensOf (c :: current) cs

/-- The width a suffix names (R49). -/
def widthNamed (suffix : List Char) : Option WidthTag :=
  if suffix = ['8'] then some .w8
  else if suffix = ['1', '6'] then some .w16
  else if suffix = ['3', '2'] then some .w32
  else if suffix = ['6', '4'] then some .w64
  else none

/-- The operand tokens of a line, up to `->`: hexadecimal words of exactly `w/4` digits and at most one `#j` (R49). DESIGN CHOICE
(notes/assumptions/10.md): R49 does not say whether an assembler requires or checks the results after `->`; here `->` and what
follows it may be left out, and every token after it is dropped unread, a malformed one too. -/
def readOperands (digits : Nat) : List (List Char) → Option (List Nat × Option Nat)
  | [] => some ([], none)
  | ['-', '>'] :: _ => some ([], none)
  | ('#' :: ds) :: rest =>
    match rest, readDigits 10 0 ds with
    | [], some j => if ds = [] then none else some ([], some j)
    | ['-', '>'] :: _, some j => if ds = [] then none else some ([], some j)
    | _, _ => none
  | tok :: rest =>
    match readDigits 16 0 tok, readOperands digits rest with
    | some v, some (vs, j) => if tok.length = digits then some (v :: vs, j) else none
    | _, _ => none

/-- The line `MNEMONIC.w operand, operand, … [, #j] [-> results]` (R49): the width is what follows the last dot. -/
def parseLine (text : String) : Option AsmLine :=
  match tokensOf [] text.toList with
  | [] => none
  | head :: rest =>
    let suffix := (head.reverse.takeWhile (· != '.')).reverse
    let name := (head.reverse.drop (suffix.length + 1)).reverse
    match widthNamed suffix with
    | none => none
    | some w =>
      match readOperands (w.bits / 4) rest with
      | none => none
      | some (vs, j) => some ⟨String.ofList name, w, vs, j⟩

/-- From a line of text to the evaluation it asks for (R49, R50). -/
def assembleText (text : String) : Option Stimulus :=
  match parseLine text with
  | some l => l.assemble
  | none => none

end Sys2Proof.Machine
end

