-- ==== Sys2Proof/Safety.lean ====
section
/-! DEFINITION. The terms claims are made in: shares and carries (spec/00_scope.md rule R9 and section 6), the invariant of the
ports (spec/10_state.md rules R19 and R22), and first-order security (spec/43_security_model.md rules R89 to R94). -/

namespace Sys2Proof.Safety

open Sys2Proof.Machine

/-! ## Shares and carries -/

/-- `(share, mask)` is an Arithmetic Share Pair of the secret (R9). -/
abbrev ArithmeticShare {w : Nat} (secret share mask : BitVec w) : Prop := secret = share + mask

/-- `(share, mask)` is a Boolean Share Pair of the secret (R9). -/
abbrev BooleanShare {w : Nat} (secret share mask : BitVec w) : Prop := secret = share ^^^ mask

/-- Bit `i` of the carry word of `a + b`, that is, the carry into position `i` (spec/00_scope.md section 6). -/
def carryBit {w : Nat} (a b : BitVec w) : Nat → Bool
  | 0 => false
  | i + 1 => (a.getLsbD i && b.getLsbD i) || (carryBit a b i && (a.getLsbD i ^^ b.getLsbD i))

/-- The unmasked propagate and generate words after some full rounds (R74, R78): a round at distance `d` takes `(p, g)` to
`(p & shl(p, d), g ^ (p & shl(g, d)))`. No wire holds them. -/
def plainRounds {w : Nat} (p g : BitVec w) : Nat → BitVec w × BitVec w
  | 0 => (p, g)
  | k + 1 =>
    let before := plainRounds p g k
    (before.1 &&& before.1 <<< 2 ^ k, before.2 ^^^ (before.1 &&& before.2 <<< 2 ^ k))

/-! ## The state between evaluations -/

/-- A word fits the ports of an instance: nothing above `WMAX` (R6, R19). -/
abbrev FitsPort (c : Config) (v : PortWord) : Prop := v.toNat < 2 ^ c.wmax

/-- What the environment drives is words of the instance: nothing above `WMAX` on an input port (R6, R19). -/
abbrev InputsFit (s : State) : Prop := ∀ k : InPort, FitsPort s.cfg (s.port k)

/-- Every data port of the state carries at most `WMAX` bits (R19). -/
abbrev PortsFit (s : State) : Prop :=
  FitsPort s.cfg s.in0 ∧ FitsPort s.cfg s.in1 ∧ FitsPort s.cfg s.in2 ∧ FitsPort s.cfg s.in3 ∧ FitsPort s.cfg s.in4 ∧
    FitsPort s.cfg s.in5 ∧ FitsPort s.cfg s.out0 ∧ FitsPort s.cfg s.out1

/-- Every wire of the probe set is a word of at most `WMAX` bits (R91). -/
abbrev WiresFit (s : State) : Prop := ∀ p ∈ s.wires, FitsPort s.cfg p.value

/-- The outputs, `err` and the wires are those of what stands on the input ports (R115). -/
abbrev Settled (s : State) : Prop := s.response = eval s.cfg.hasW64 s.stimulus

/-- When `err` is not 0 the outputs are 0 and there is no wire (R104). -/
abbrev ErrorIsSilent (s : State) : Prop := s.err ≠ 0 → s.out0 = 0 ∧ s.out1 = 0 ∧ s.wires = []

/-- What holds of every state the block can show: the ports and wires are words of the instance, an error is silent, and the
outputs are those of the inputs. -/
abbrev Inv (s : State) : Prop := PortsFit s ∧ WiresFit s ∧ ErrorIsSilent s ∧ Settled s

/-- The input ports and the parameter, which are not the block's to write (R13, R19). -/
abbrev SameInputs (s t : State) : Prop := t.cfg = s.cfg ∧ t.stimulus = s.stimulus

/-! ## The experiment of R93 -/

/-- All words of width `w`: one draw of the Random Source takes each exactly once (R12, R93). -/
def words (w : Nat) : List (BitVec w) := (List.range (2 ^ w)).map (BitVec.ofNat w)

/-- The draws of two, three and four independent uniform words. -/
def draws2 (w : Nat) : List (BitVec w × BitVec w) := (words w).product (words w)
def draws3 (w : Nat) : List (BitVec w × BitVec w × BitVec w) := (words w).product (draws2 w)
def draws4 (w : Nat) : List (BitVec w × BitVec w × BitVec w × BitVec w) := (words w).product (draws3 w)

/-- How many of the draws give a value: a cell of the tables of spec/95_test_vectors.md section 6. -/
def occurrences {D α : Type} [DecidableEq α] (draws : List D) (f : D → α) (v : α) : Nat := draws.countP fun d => f d = v

/-- Two observations have one distribution over the draws. -/
def SameDistribution {D α : Type} [DecidableEq α] (draws : List D) (f g : D → α) : Prop :=
  ∀ v, occurrences draws f v = occurrences draws g v

/-- First-order security (R89): each wire, taken alone, is distributed alike for every two secrets. `probe σ d` lists the values
of the probe set in order, for the secret `σ` and the draw `d`; the wire is named by its place in that list. -/
def FirstOrderSecure {S D α : Type} [DecidableEq α] (draws : List D) (probe : S → D → List α) : Prop :=
  ∀ (σ σ' : S) (wire : Nat), SameDistribution draws (fun d => (probe σ d)[wire]?) (fun d => (probe σ' d)[wire]?)

/-- The wire at a place leaks: its distribution differs between two secrets. -/
def WireLeaks {S D α : Type} [DecidableEq α] (draws : List D) (probe : S → D → List α) (wire : Nat) : Prop :=
  ∃ σ σ' : S, ¬ SameDistribution draws (fun d => (probe σ d)[wire]?) (fun d => (probe σ' d)[wire]?)

/-- The experiments of R93, one for each operation, at any width (R8): secret tuple, random draws, probe set. -/
def probesA2bG {w : Nat} (x : BitVec w) (d : BitVec w × BitVec w) : List (BitVec w) :=
  (a2bG (x - d.1) d.1 d.2).values

def probesB2aG {w : Nat} (x : BitVec w) (d : BitVec w × BitVec w) : List (BitVec w) :=
  (b2aG (x ^^^ d.1) d.1 d.2).values

def probesSecAnd {w : Nat} (xy : BitVec w × BitVec w) (d : BitVec w × BitVec w × BitVec w) : List (BitVec w) :=
  (secAnd .top (xy.1 ^^^ d.1) (xy.2 ^^^ d.2.1) d.1 d.2.1 d.2.2).values

def probesSecXor {w : Nat} (xy : BitVec w × BitVec w) (d : BitVec w × BitVec w) : List (BitVec w) :=
  (secXor .top (xy.1 ^^^ d.1) (xy.2 ^^^ d.2) d.1 d.2).values

def probesSecShl {w : Nat} (j : Nat) (x : BitVec w) (d : BitVec w × BitVec w) : List (BitVec w) :=
  (secShl .top (x ^^^ d.1) d.1 d.2 j).values

def probesA2bKs {w : Nat} (x : BitVec w) (d : BitVec w × BitVec w × BitVec w × BitVec w) : List (BitVec w) :=
  (a2bKs (x - d.1) d.1 d.2.1 d.2.2.1 d.2.2.2).values

def probesAddKs {w : Nat} (xy : BitVec w × BitVec w) (d : BitVec w × BitVec w × BitVec w × BitVec w) :
    List (BitVec w) :=
  (addKs (xy.1 ^^^ d.1) d.1 (xy.2 ^^^ d.2.1) d.2.1 d.2.2.1 d.2.2.2).values

/-! ## The roles of the ports (R92) and the experiment on the machine -/

/-- A share port of an operation (R92): the port, the port of the mask it is under, whether it carries the second secret of the
tuple, and how the secret is combined with the mask (R9). -/
structure ShareRole where
  port : InPort
  mask : InPort
  second : Bool
  arithmetic : Bool
deriving DecidableEq, Repr

/-- The shares of each operation (R92). -/
def shares : Instr → List ShareRole
  | .a2bG _ _ => [⟨.in0, .in1, false, true⟩]
  | .b2aG _ _ => [⟨.in0, .in1, false, false⟩]
  | .secAnd _ _ => [⟨.in0, .in2, false, false⟩, ⟨.in1, .in3, true, false⟩]
  | .secXor _ _ => [⟨.in0, .in2, false, false⟩, ⟨.in1, .in3, true, false⟩]
  | .secShl _ _ => [⟨.in0, .in1, false, false⟩]
  | .a2bKs _ _ => [⟨.in0, .in1, false, true⟩]
  | .addKs _ _ => [⟨.in0, .in1, false, false⟩, ⟨.in2, .in3, true, false⟩]
  | .reserved _ _ => []

/-- The masks of the shares of each operation (R92). -/
def masks (i : Instr) : List InPort := (shares i).map ShareRole.mask

/-- The fresh random words of each operation (R92). -/
def freshRandoms : Instr → List InPort
  | .a2bG _ _ => [.in2]
  | .b2aG _ _ => [.in2]
  | .secAnd _ _ => [.in4]
  | .secXor _ _ => []
  | .secShl _ _ => [.in2]
  | .a2bKs _ _ => [.in2, .in3, .in4]
  | .addKs _ _ => [.in4, .in5]
  | .reserved _ _ => []

/-- The random words of each operation, masks before fresh randoms (R92, R93). -/
def randomWords (i : Instr) : List InPort := masks i ++ freshRandoms i

/-- How the result on `out[0]` stands for the operation's value: under the mask on which port, arithmetic or Boolean (R100). -/
def resultMask : Instr → Option (InPort × Bool)
  | .a2bG _ _ => some (.in1, false)
  | .b2aG _ _ => some (.in1, true)
  | .secAnd _ _ => some (.in4, false)
  | .secXor _ _ => some (.in2, false)
  | .secShl _ _ => some (.in2, false)
  | .a2bKs _ _ => some (.in1, false)
  | .addKs _ _ => some (.in3, false)
  | .reserved _ _ => none

/-- The value each operation computes on the secrets its shares carry (R54, R57, R65, R67, R69, R79, R82). -/
def secretResult {w : Nat} (secrets : List (BitVec w)) : Instr → BitVec w
  | .a2bG _ _ => secrets.getD 0 0
  | .b2aG _ _ => secrets.getD 0 0
  | .secAnd _ _ => secrets.getD 0 0 &&& secrets.getD 1 0
  | .secXor _ _ => secrets.getD 0 0 ^^^ secrets.getD 1 0
  | .secShl _ j => secrets.getD 0 0 <<< j.toNat
  | .a2bKs _ _ => secrets.getD 0 0
  | .addKs _ _ => secrets.getD 0 0 + secrets.getD 1 0
  | .reserved _ _ => 0

/-- The share a host forms of a secret under the mask that stands on the mask's port (R9, R93). -/
def shareOf {w : Nat} (arithmetic : Bool) (secret mask : BitVec w) : BitVec w :=
  if arithmetic then secret - mask else secret ^^^ mask

/-- The value a share stands for under a mask (R9). -/
def secretOf {w : Nat} (arithmetic : Bool) (share mask : BitVec w) : BitVec w :=
  if arithmetic then share + mask else share ^^^ mask

/-- The secrets that the shares on the ports carry under the masks on the ports (R9, R92). -/
def secretsOn (s : State) (i : Instr) (w : Nat) : List (BitVec w) :=
  (shares i).map fun r => secretOf r.arithmetic (s.operand r.port w) (s.operand r.mask w)

/-- The random words are put on their ports. -/
def drawPorts {w : Nat} (s : State) : List (InPort × BitVec w) → State
  | [] => s
  | (k, v) :: rest => drawPorts (s.setPort k (driveWord v)) rest

/-- The shares are formed from the secrets and the masks on the ports, and put on their own ports. -/
def sharePorts {w : Nat} (x y : BitVec w) (s : State) : List ShareRole → State
  | [] => s
  | r :: rest =>
    sharePorts x y
      (s.setPort r.port (driveWord (shareOf r.arithmetic (if r.second then y else x) (s.operand r.mask w)))) rest

/-- The experiment of R93 on the machine: the command `i` on `cmd`, the drawn words on the random ports, the shares of the
secrets `x`, `y` on the share ports; every other port is as it was in `s`. -/
def experiment (s : State) (i : Instr) (xy : BitVec i.width.bits × BitVec i.width.bits)
    (d : List (BitVec i.width.bits)) : State :=
  sharePorts xy.1 xy.2 (drawPorts { s with cmd := encode i } ((randomWords i).zip d)) (shares i)

/-- All draws of `n` independent uniform words. -/
def drawLists (w : Nat) : Nat → List (List (BitVec w))
  | 0 => [[]]
  | n + 1 => (words w).flatMap fun v => (drawLists w n).map (v :: ·)

/-- The values of the probe set after one step; none when the step stops. -/
def observed (s : State) : List PortWord :=
  match step s with
  | .next t => t.wires.map Probe.value
  | .fault _ => []
  | .refused _ => []

/-- R94 for one command on what else stands on the ports: in the experiment of R93 the wires that one step shows are first-order
independent of the secrets (R89, R90). -/
def CommandIsSecure (s : State) (i : Instr) : Prop :=
  FirstOrderSecure (drawLists i.width.bits (randomWords i).length) fun xy d => observed (experiment s i xy d)

/-- R94 for one operation at any width of R8: its netlist is first-order secure in the experiment of R93. The reserved code selects
no operation. -/
def OperationIsSecure (w : Nat) : Instr → Prop
  | .a2bG _ _ => FirstOrderSecure (draws2 w) probesA2bG
  | .b2aG _ _ => FirstOrderSecure (draws2 w) probesB2aG
  | .secAnd _ _ => FirstOrderSecure (draws3 w) probesSecAnd
  | .secXor _ _ => FirstOrderSecure (draws2 w) probesSecXor
  | .secShl _ j => FirstOrderSecure (draws2 w) (probesSecShl j.toNat)
  | .a2bKs _ _ => FirstOrderSecure (draws4 w) probesA2bKs
  | .addKs _ _ => FirstOrderSecure (draws4 w) probesAddKs
  | .reserved _ _ => True

/-- The security statement of R94, as one proposition about the block: every operation is first-order secure at every width of R8,
and so is every command that the host may send, in one step of the machine. Its standing is R94's table: the spec proves
SECAND, SECXOR, SECSHL and B2A.G, and requires A2B.G, A2B.KS and ADD.KS, which it enumerates at widths 2 to 5 (R95). The model
assumes none of it; Certificates/Slice0/Obligations.lean states all of it for the provers. -/
def SecurityStatement : Prop :=
  (∀ w : Nat, 2 ≤ w → ∀ i : Instr, OperationIsSecure w i) ∧
    ∀ (s : State) (i : Instr), i.legal s.cfg = true → CommandIsSecure s i

/-! ## The tables of R87 and R90 -/

/-- The wires of SECAND, SECXOR and SECSHL at a site (R64, R66, R68). -/
def secAndNames (site : Site) : List Wire := [.n0, .n1, .n2, .n3, .n4, .n5, .n6, .z1].map (Wire.gate site)
def secXorNames (site : Site) : List Wire := [.q0, .z1].map (Wire.gate site)
def secShlNames (site : Site) : List Wire := [.h0, .h1, .h2, .z1].map (Wire.gate site)

/-- The wires of A2B.G at width `w` (R55). -/
def a2bGNames (w : Nat) : List Wire :=
  (List.range 9).map Wire.i ++ (List.range (w - 1)).flatMap (fun k => (List.range 5).map (Wire.c (k + 1))) ++ [.x1]

/-- The wires of B2A.G (R58). -/
def b2aGNames : List Wire := [.capT0, .capT1, .capT2, .g1, .capA0, .capA1, .capA]

/-- The wires of full round `r<k>` (R75). -/
def roundNames (k : Nat) : List Wire :=
  secShlNames (.round k .hg) ++ secAndNames (.round k .u) ++ secXorNames (.round k .g) ++ secShlNames (.round k .hp) ++
    secAndNames (.round k .pa) ++ [.roundP1 k, .roundP2 k]

/-- The wires of the final step `f` (R77). -/
def finalNames : List Wire := secShlNames (.last .hg) ++ secAndNames (.last .u) ++ secXorNames (.last .g)

/-- The wires of the prefix network of `n` levels (R76, R87). -/
def networkNames (n : Nat) : List Wire := (List.range (n - 1)).flatMap (fun k => roundNames (k + 1)) ++ finalNames

/-- The wires of A2B.KS with `n` levels (R80, R87). -/
def a2bKsNames (n : Nat) : List Wire :=
  [.p0, .capP0, .g0, .g1, .g2, .g3, .capG0] ++ networkNames n ++ [.e0, .e1, .e2, .x1]

/-- The wires of ADD.KS with `n` levels (R83, R87). -/
def addKsNames (n : Nat) : List Wire :=
  secXorNames .p0 ++ secAndNames .ga ++ [.g4, .capG0] ++ networkNames n ++ secXorNames .z ++
    [.e0, .e1, .e2, .gate .top .z1]

/-- The first wire of a SECSHL (R86 counts them), and of a SECAND. -/
def startsSecShl : Wire → Bool
  | .gate _ .h0 => true
  | _ => false
def startsSecAnd : Wire → Bool
  | .gate _ .n0 => true
  | _ => false

/-- The value on a named wire of a netlist. -/
def wireValue {w : Nat} (net : Net w) (n : Wire) : Option (BitVec w) :=
  (net.lines.find? fun l => l.wire == n).map Line.val

end Sys2Proof.Safety
end

