-- ==== Sys2Proof/Certificates/Slice0/Obligations.lean ====
section
/-! DEFINITION. The statements about the model, for the provers. Each docstring names the rule of spec/ the statement comes
from. A rule that the spec marks as derived, or that this model adds a choice to, is said to be so. -/

open Sys2Proof Sys2Proof.Machine Sys2Proof.Safety

/-! ## Encoding -/

/-- Decoding an encoded command gives it back, at every width tag and distance (R39 to R42, R45). -/
def Obligations.EncodeThenDecodeIsIdentity : Prop := ∀ i : Instr, decode (encode i) = i

/-- Every command word is the encoding of what it decodes to, so no bit is dropped (R39, R47). -/
def Obligations.DecodeThenEncodeIsIdentity : Prop := ∀ c : Cmd, encode (decode c) = c

/-- R39: the fields of a command word, and the word as the number `j·32 + wtag·8 + op`. -/
def Obligations.CommandWordIsSumOfFields : Prop :=
  (∀ c : Cmd, c.toNat = (distanceField c).toNat * 32 + (wtagField c).toNat * 8 + (opField c).toNat) ∧
    ∀ i : Instr, distanceField (encode i) = i.distance ∧ wtagField (encode i) = i.width.code ∧
      opField (encode i) = i.opcode ∧ (encode i).toNat = i.distance.toNat * 32 + i.width.code.toNat * 8 + i.opcode.toNat

/-- R40, R52: a row of the opcode table selects a command word exactly when the word decodes to that row's mnemonic. -/
def Obligations.OpcodeTableSelectsDecodedCommand : Prop :=
  ∀ c : Cmd, ∀ r ∈ opcodeTable, (r.selects c = true ↔ r.mnemonic = (decode c).mnemonic)

/-- Command words written out in spec/95_test_vectors.md sections 0, 3 and 5, one for each row at least. -/
def Obligations.SpecCommandWordsDecode : Prop :=
  decode 0x000 = .a2bG .w8 0 ∧ decode 0x018 = .a2bG .w64 0 ∧ decode 0x009 = .b2aG .w16 0 ∧
    decode 0x012 = .secAnd .w32 0 ∧ decode 0x003 = .secXor .w8 0 ∧ decode 0x024 = .secShl .w8 1 ∧
    decode 0x1EC = .secShl .w16 15 ∧ decode 0x7FC = .secShl .w64 63 ∧ decode 0x015 = .a2bKs .w32 0 ∧
    decode 0x00E = .addKs .w16 0 ∧ decode 0x7E6 = .addKs .w8 63 ∧ decode 0x01F = .reserved .w64 0

/-- The count of R47 (derived there): of the 2048 words, 1792 select an operation, 448 of them at width 64, and 256 have the
reserved code. -/
def Obligations.CommandWordClasses : Prop :=
  let all := (List.range 2048).map fun n => decode (BitVec.ofNat 11 n)
  all.countP Instr.selectsOperation = 1792 ∧
    (all.countP fun i => i.selectsOperation && i.width == .w64) = 448 ∧
    (all.countP fun i => !i.selectsOperation) = 256

/-- The `cmd` port has 11 wires (R19, R38): a larger number is refused by name, a smaller one is decoded. The refusal of pad bits
is the model's choice (notes/assumptions/5.md). -/
def Obligations.WordsBeyondThePortAreRefused : Prop :=
  ∀ nbits n : Nat,
    (2 ^ 11 ≤ n → decodeWord n = .error .beyondCommandPort ∧ decodeTableWord nbits n = none) ∧
      (n < 2 ^ 11 → decodeTableWord nbits n = some (decode (BitVec.ofNat 11 n)))

/-! ## The step -/

/-- R14, R38: a step runs the command that stands on `cmd`; when that is the word of `i`, it is `exec i`. -/
def Obligations.StepRunsTheDecodedCommand : Prop :=
  (∀ s : State, step s = exec (decode s.cmd) s) ∧
    (∀ (s : State) (i : Instr), s.cmd = encode i → step s = exec i s) ∧
    ∀ (s : State) (nbits n : Nat) (i : Instr), decodeTableWord nbits n = some i →
      step (s.withFetchWord nbits n) = exec i (s.withFetchWord nbits n)

/-- R114, R115: nothing is reset, and the power-up state is an evaluation like any other, so evaluating it again changes
nothing. That the environment holds every input at 0 at power-up is the model's choice (notes/assumptions/2.md), and so is that
the parameter, which R6 leaves open with default `false`, has that default in the reset state (notes/assumptions/3.md). -/
def Obligations.ResetIsASettledEvaluation : Prop :=
  Settled State.reset ∧ State.reset.cfg.hasW64 = false ∧ State.reset.stimulus = ⟨0, 0, 0, 0, 0, 0, 0⟩ ∧
    State.reset.out0 = 0 ∧ State.reset.out1 = 0 ∧ State.reset.err = 0 ∧ State.reset.wires.length = 45 ∧
    step State.reset = .next State.reset

/-- The invariant of the ports and wires holds at power-up (R19, R104, R115). -/
def Obligations.ResetMeetsTheInvariant : Prop := Inv State.reset

/-- Every evaluation of words that fit the input ports ends in a state that meets the invariant, whatever stood on the outputs and
wires before: the outputs and wires are words of the instance (R19, R22, R91), an error is silent (R104), and the outputs are
those of the inputs (R115). So every step keeps the invariant, which has the hypothesis among its parts. -/
def Obligations.EveryStepKeepsTheInvariant : Prop := ∀ s t : State, InputsFit s → step s = .next t → Inv t

/-- One step is the function `eval` of R51 (derived there) with the trace of R90, and the input ports are left alone. -/
def Obligations.StepRefinesEval : Prop :=
  ∀ s : State, ∃ t, step s = .next t ∧ t.response = eval s.cfg.hasW64 s.stimulus ∧ SameInputs s t

/-- R25: for every value of the ports an evaluation ends with defined and unique outputs, and for a legal command they are those
of the operation's pseudocode, whatever the operands are. -/
def Obligations.EveryEvaluationIsDefined : Prop :=
  ∀ s : State, ∃ t, step s = .next t ∧ (∀ t', step s = .next t' → t' = t) ∧
    ((decode s.cmd).legal s.cfg = true → t = s.settle (netOf (decode s.cmd) s))

/-- The frame of every command (R13, R15, R31): each completes, and neither an input port nor the parameter changes. -/
def Obligations.EveryInstructionKeepsTheInputs : Prop :=
  ∀ (i : Instr) (s : State), ∃ t, exec i s = .next t ∧ t.cfg = s.cfg ∧ t.cmd = s.cmd ∧ ∀ k : InPort, t.port k = s.port k

/-- R33 (derived there): the outputs depend on the inputs of the evaluation and on the parameter only; whatever an earlier
evaluation left on the outputs and wires has no effect. -/
def Obligations.ResponseIgnoresEarlierEvaluations : Prop :=
  ∀ s s' : State, s.cfg = s'.cfg → s.stimulus = s'.stimulus →
    ∃ t t', step s = .next t ∧ step s' = .next t' ∧ t = t'

/-- R33, R34: a host's sequence of evaluations on one instance is answered one by one, each by `eval` of its own inputs. -/
def Obligations.SessionAnswersEachEvaluationAlone : Prop :=
  ∀ (s : State) (xs : List Stimulus), session s xs = xs.map (eval s.cfg.hasW64)

/-- R23 (and the ignored upper bits of R21): two states that agree on the operation, the width, the distance where SECSHL reads
it, and the low bits of the ports the operation reads, give the same outputs, `err` and wires. `Instr.reads` is the table
of R43 without the `s` port of SECXOR. -/
def Obligations.UnreadInputsAreIgnored : Prop :=
  ∀ s s' : State, s.cfg = s'.cfg → opField s.cmd = opField s'.cmd → wtagField s.cmd = wtagField s'.cmd →
    (opField s.cmd = 4 → distanceField s.cmd = distanceField s'.cmd) →
    (∀ k ∈ Instr.reads (decode s.cmd),
      s.operand k (decode s.cmd).width.bits = s'.operand k (decode s.cmd).width.bits) →
    ∃ t t', step s = .next t ∧ step s' = .next t' ∧ t.response = t'.response

/-- R31: repeating an evaluation on the same inputs gives the same outputs and wires. -/
def Obligations.StepIsIdempotent : Prop :=
  ∀ s : State, ∃ t, step s = .next t ∧ step t = .next t

/-! ## Errors -/

/-- R102: `err[0]` is raised exactly by `cmd[4:3] = 3` on an instance without width 64, whatever the other inputs, and the block
refuses to dispatch. -/
def Obligations.WidthErrorExactly : Prop :=
  ∀ s : State, ∃ t, step s = .next t ∧
    (t.err.getLsbD 0 = true ↔ wtagField s.cmd = 3 ∧ s.cfg.hasW64 = false) ∧
    (t.err.getLsbD 0 = true → t.out0 = 0 ∧ t.out1 = 0 ∧ t.wires = [])

/-- R103: `err[1]` is raised exactly by `cmd[2:0] = 7`, whatever the other inputs, and the block refuses to dispatch. -/
def Obligations.OperationErrorExactly : Prop :=
  ∀ s : State, ∃ t, step s = .next t ∧ (t.err.getLsbD 1 = true ↔ opField s.cmd = 7) ∧
    (t.err.getLsbD 1 = true → t.out0 = 0 ∧ t.out1 = 0 ∧ t.wires = [])

/-- R104: the whole effect of `raise Err(c)` is the code on `err`, zero outputs and an empty probe set; nothing is saved, the next
evaluation is unaffected, and without an error `err` is 0. -/
def Obligations.RaisingAnErrorHasNoOtherEffect : Prop :=
  ∀ (i : Instr) (s : State),
    (i.legal s.cfg = true → ∃ t, exec i s = .next t ∧ t.err = 0) ∧
      (i.legal s.cfg = false →
        exec i s = .next { s with out0 := 0, out1 := 0, err := errOf s.cfg i, wires := [] } ∧
          errOf s.cfg i ≠ 0 ∧ (errOf s.cfg i).getLsbD 1 = !i.selectsOperation ∧
          (errOf s.cfg i).getLsbD 0 = !i.widthSupported s.cfg ∧
          ∀ (t : State) (x : Stimulus), exec i s = .next t → step (t.drive x) = step (s.drive x))

/-- The table of R105 (derived there). -/
def Obligations.ErrorCodeTable : Prop :=
  ∀ s t : State, step s = .next t →
    (wtagField s.cmd ≠ 3 → opField s.cmd ≠ 7 → t.err = 0) ∧
      (wtagField s.cmd ≠ 3 → opField s.cmd = 7 → t.err = 2) ∧
      (s.cfg.hasW64 = false → wtagField s.cmd = 3 → opField s.cmd ≠ 7 → t.err = 1) ∧
      (s.cfg.hasW64 = false → wtagField s.cmd = 3 → opField s.cmd = 7 → t.err = 3) ∧
      (s.cfg.hasW64 = true → wtagField s.cmd = 3 → opField s.cmd ≠ 7 → t.err = 0) ∧
      (s.cfg.hasW64 = true → wtagField s.cmd = 3 → opField s.cmd = 7 → t.err = 2)

/-- R22: with `err` 0 a driven output is the result in the low bits and zero above, and an output that is not driven is 0; with
`err` not 0 both outputs are 0. -/
def Obligations.OutputsAreZeroExtended : Prop :=
  ∀ s : State, ∃ t, step s = .next t ∧
    (t.err = 0 →
      t.out0 = (netOf (decode s.cmd) s).r0.setWidth 64 ∧ t.out0.toNat < 2 ^ (decode s.cmd).width.bits ∧
        t.out1.toNat < 2 ^ (decode s.cmd).width.bits ∧
        (opField s.cmd = 6 → t.out1 = (netOf (decode s.cmd) s).r1.setWidth 64) ∧
        (opField s.cmd ≠ 6 → t.out1 = 0)) ∧
    (t.err ≠ 0 → t.out0 = 0 ∧ t.out1 = 0)

/-- R45: the reserved code raises `Err` with bit 1 set for every width tag and distance (with bit 0 beside it when the width is
unsupported), with zero outputs and no wires, and it is the only code that does. -/
def Obligations.ReservedCodeRaisesOperationError : Prop :=
  (∀ (w : WidthTag) (j : Distance) (s : State),
    exec (.reserved w j) s = .next { s with out0 := 0, out1 := 0, err := if s.cfg.supports w then 2 else 3, wires := [] }) ∧
    ∀ c : Cmd, opField c = 7 ↔ ∃ w j, decode c = .reserved w j

/-- R46: width 64 on an instance without it raises `Err` with bit 0 set, for every operation and distance, and no other width is
ever unsupported. -/
def Obligations.UnsupportedWidthRaisesWidthError : Prop :=
  (∀ (i : Instr) (s : State), i.width = .w64 → s.cfg.hasW64 = false →
    exec i s = .next { s with out0 := 0, out1 := 0, err := if i.selectsOperation then 1 else 3, wires := [] }) ∧
    ∀ (c : Config) (w : WidthTag), c.supports w = false ↔ w = .w64 ∧ c.hasW64 = false

/-! ## What each operation completes with -/

/-- SECAND on a supported width (R64; the closed form of the result is R65's, derived there): the exact next state, its eight
wires among it. -/
def Obligations.SecAndCompletes : Prop :=
  ∀ (w : WidthTag) (j : Distance) (s : State), s.cfg.supports w = true →
    let x1 := s.operand .in0 w.bits
    let y1 := s.operand .in1 w.bits
    let m := s.operand .in2 w.bits
    let t := s.operand .in3 w.bits
    let u := s.operand .in4 w.bits
    exec (.secAnd w j) s = .next { s with
      out0 := driveWord (((x1 ^^^ m) &&& (y1 ^^^ t)) ^^^ u)
      out1 := 0
      err := 0
      wires := [⟨.gate .top .n0, driveWord (x1 &&& y1)⟩, ⟨.gate .top .n1, driveWord ((x1 &&& y1) ^^^ u)⟩,
        ⟨.gate .top .n2, driveWord (x1 &&& t)⟩, ⟨.gate .top .n3, driveWord ((x1 &&& y1) ^^^ u ^^^ (x1 &&& t))⟩,
        ⟨.gate .top .n4, driveWord (y1 &&& m)⟩,
        ⟨.gate .top .n5, driveWord ((x1 &&& y1) ^^^ u ^^^ (x1 &&& t) ^^^ (y1 &&& m))⟩,
        ⟨.gate .top .n6, driveWord (m &&& t)⟩,
        ⟨.gate .top .z1, driveWord ((x1 &&& y1) ^^^ u ^^^ (x1 &&& t) ^^^ (y1 &&& m) ^^^ (m &&& t))⟩] }

/-- SECXOR on a supported width (R66): the exact next state; the word on `in[2]` does not occur in it. -/
def Obligations.SecXorCompletes : Prop :=
  ∀ (w : WidthTag) (j : Distance) (s : State), s.cfg.supports w = true →
    let x1 := s.operand .in0 w.bits
    let y1 := s.operand .in1 w.bits
    let u := s.operand .in3 w.bits
    exec (.secXor w j) s = .next { s with
      out0 := driveWord (x1 ^^^ y1 ^^^ u)
      out1 := 0
      err := 0
      wires := [⟨.gate .top .q0, driveWord (x1 ^^^ y1)⟩, ⟨.gate .top .z1, driveWord (x1 ^^^ y1 ^^^ u)⟩] }

/-- SECSHL on a supported width (R68; the closed forms are R69's, derived there): the exact next state for every distance 0 to
63, and the result `t` when the distance reaches the width. -/
def Obligations.SecShlCompletes : Prop :=
  ∀ (w : WidthTag) (j : Distance) (s : State), s.cfg.supports w = true →
    let x1 := s.operand .in0 w.bits
    let m := s.operand .in1 w.bits
    let t := s.operand .in2 w.bits
    (exec (.secShl w j) s = .next { s with
      out0 := driveWord (((x1 ^^^ m) <<< j.toNat) ^^^ t)
      out1 := 0
      err := 0
      wires := [⟨.gate .top .h0, driveWord (x1 <<< j.toNat)⟩, ⟨.gate .top .h1, driveWord (x1 <<< j.toNat ^^^ t)⟩,
        ⟨.gate .top .h2, driveWord (m <<< j.toNat)⟩,
        ⟨.gate .top .z1, driveWord (x1 <<< j.toNat ^^^ t ^^^ m <<< j.toNat)⟩] }) ∧
      (w.bits ≤ j.toNat → ((x1 ^^^ m) <<< j.toNat) ^^^ t = t)

/-- B2A.G on a supported width (R58; the closed form of the result is R59's, derived there): the exact next state, its seven
wires among it. -/
def Obligations.B2aGCompletes : Prop :=
  ∀ (w : WidthTag) (j : Distance) (s : State), s.cfg.supports w = true →
    let x1 := s.operand .in0 w.bits
    let r := s.operand .in1 w.bits
    let g := s.operand .in2 w.bits
    exec (.b2aG w j) s = .next { s with
      out0 := driveWord ((x1 ^^^ r) - r)
      out1 := 0
      err := 0
      wires := [⟨.capT0, driveWord (x1 ^^^ g)⟩, ⟨.capT1, driveWord ((x1 ^^^ g) - g)⟩,
        ⟨.capT2, driveWord (((x1 ^^^ g) - g) ^^^ x1)⟩, ⟨.g1, driveWord (g ^^^ r)⟩,
        ⟨.capA0, driveWord (x1 ^^^ (g ^^^ r))⟩, ⟨.capA1, driveWord ((x1 ^^^ (g ^^^ r)) - (g ^^^ r))⟩,
        ⟨.capA, driveWord ((x1 ^^^ r) - r)⟩] }

/-- A2B.G on a supported width (R55; the closed form of the result is R56's, derived there): the exact next state, with the wires
of the netlist. -/
def Obligations.A2bGCompletes : Prop :=
  ∀ (w : WidthTag) (j : Distance) (s : State), s.cfg.supports w = true →
    let a := s.operand .in0 w.bits
    let r := s.operand .in1 w.bits
    let g := s.operand .in2 w.bits
    exec (.a2bG w j) s = .next { s with
      out0 := driveWord ((a + r) ^^^ r)
      out1 := 0
      err := 0
      wires := (a2bG a r g).probes }

/-- A2B.KS on a supported width (R80; the closed form of the result is R81's, derived there): the exact next state, with the
wires of the netlist. -/
def Obligations.A2bKsCompletes : Prop :=
  ∀ (w : WidthTag) (j : Distance) (s : State), s.cfg.supports w = true →
    let a := s.operand .in0 w.bits
    let r := s.operand .in1 w.bits
    exec (.a2bKs w j) s = .next { s with
      out0 := driveWord ((a + r) ^^^ r)
      out1 := 0
      err := 0
      wires := (a2bKs a r (s.operand .in2 w.bits) (s.operand .in3 w.bits) (s.operand .in4 w.bits)).probes }

/-- ADD.KS on a supported width (R83; the closed form of the result is R84's, derived there): the exact next state, both outputs
and the wires of the netlist. -/
def Obligations.AddKsCompletes : Prop :=
  ∀ (w : WidthTag) (j : Distance) (s : State), s.cfg.supports w = true →
    let x1 := s.operand .in0 w.bits
    let m := s.operand .in1 w.bits
    let y1 := s.operand .in2 w.bits
    let r := s.operand .in3 w.bits
    exec (.addKs w j) s = .next { s with
      out0 := driveWord (((x1 ^^^ m) + (y1 ^^^ r)) ^^^ r)
      out1 := driveWord r
      err := 0
      wires := (addKs x1 m y1 r (s.operand .in4 w.bits) (s.operand .in5 w.bits)).probes }

/-! ## What the operations compute, at every width of R8 -/

/-- The contracts of the gates (R65, R67, R69, derived there), at any site. -/
def Obligations.GateContracts : Prop :=
  ∀ (w : Nat) (site : Site) (x y x1 y1 s t u : BitVec w) (j : Nat),
    (BooleanShare x x1 s → BooleanShare y y1 t → BooleanShare (x &&& y) (secAnd site x1 y1 s t u).r0 u) ∧
      (BooleanShare x x1 s → BooleanShare y y1 u → BooleanShare (x ^^^ y) (secXor site x1 y1 s u).r0 s) ∧
      (BooleanShare x x1 s → BooleanShare (x <<< j) (secShl site x1 s t j).r0 t)

/-- R54: from an arithmetic share pair of a secret, A2B.G gives the Boolean share of it under the same mask, for every value of
the random word. -/
def Obligations.A2bGMeetsItsContract : Prop :=
  ∀ (w : Nat), 2 ≤ w → ∀ secret a r g : BitVec w, ArithmeticShare secret a r → BooleanShare secret (a2bG a r g).r0 r

/-- R57: from a Boolean share pair of a secret, B2A.G gives the arithmetic share of it under the same mask, for every value of
the random word. -/
def Obligations.B2aGMeetsItsContract : Prop :=
  ∀ (w : Nat), 2 ≤ w → ∀ secret x1 r g : BitVec w, BooleanShare secret x1 r → ArithmeticShare secret (b2aG x1 r g).r0 r

/-- R62 (derived there): the two Goubin conversions undo each other under a fixed mask, with any random words. -/
def Obligations.GoubinConversionsAreInverse : Prop :=
  ∀ (w : Nat), 2 ≤ w → ∀ a x1 r g g' : BitVec w,
    (b2aG (a2bG a r g).r0 r g').r0 = a ∧ (a2bG (b2aG x1 r g).r0 r g').r0 = x1

/-- R61 (derived there): more than `w - 1` rounds change nothing, and fewer are wrong for some operands at every width. -/
def Obligations.GoubinRoundCountIsExact : Prop :=
  ∀ (w : Nat), 2 ≤ w →
    (∀ (n : Nat) (a r g : BitVec w), w - 1 ≤ n → (a2bGWith n a r g).r0 = (a2bG a r g).r0) ∧
      ∀ n : Nat, n < w - 1 → ∃ a r g : BitVec w, (a2bGWith n a r g).r0 ^^^ r ≠ a + r

/-- R74 (derived there): at every stage boundary the propagate and generate words are shares under `s` of the unmasked group
words; inside a stage a shifted copy is under `t` and a SECAND output under `u`. -/
def Obligations.PrefixStagesStayMasked : Prop :=
  ∀ (w : Nat) (p g s t u : BitVec w) (k : Nat),
    (prefixRounds (p ^^^ s) (g ^^^ s) s t u k).p = (plainRounds p g k).1 ^^^ s ∧
      (prefixRounds (p ^^^ s) (g ^^^ s) s t u k).g = (plainRounds p g k).2 ^^^ s ∧
      ∀ (site site' : Site) (d : Nat),
        (secShl site (g ^^^ s) s t d).r0 = g <<< d ^^^ t ∧
          (secAnd site' (p ^^^ s) (secShl site (g ^^^ s) s t d).r0 s t u).r0 = (p &&& g <<< d) ^^^ u

/-- R78 (derived there): on `p = a ^ b` and `g = a & b` under `s`, the prefix network returns the carries of `a + b` under `s`, and
shifted by one they are the carry word of the sum. -/
def Obligations.PrefixNetworkComputesTheCarries : Prop :=
  ∀ (w : Nat), 2 ≤ w → ∀ a b s t u : BitVec w,
    let carries := (prefixNet ((a ^^^ b) ^^^ s) ((a &&& b) ^^^ s) s t u).g ^^^ s
    (∀ i < w, carries.getLsbD i = carryBit a b (i + 1)) ∧ a + b = a ^^^ b ^^^ carries <<< 1

/-- R79: from an arithmetic share pair of a secret, A2B.KS gives the Boolean share of it under the same mask, with no
precondition on `s`, `t`, `u`. -/
def Obligations.A2bKsMeetsItsContract : Prop :=
  ∀ (w : Nat), 2 ≤ w → ∀ secret a r s t u : BitVec w,
    ArithmeticShare secret a r → BooleanShare secret (a2bKs a r s t u).r0 r

/-- R82: from two Boolean share pairs, ADD.KS gives a Boolean share pair of the sum, share first and mask second, for all
`t`, `u`; the mask is the second operand's, `z2 = r` in R83's pseudocode. -/
def Obligations.AddKsMeetsItsContract : Prop :=
  ∀ (w : Nat), 2 ≤ w → ∀ x y x1 s y1 r t u : BitVec w, BooleanShare x x1 s → BooleanShare y y1 r →
    BooleanShare (x + y) (addKs x1 s y1 r t u).r0 (addKs x1 s y1 r t u).r1 ∧ (addKs x1 s y1 r t u).r1 = r

/-- R88 (derived there): the two arithmetic-to-Boolean converters compute one function of the share pair. -/
def Obligations.ConvertersAgree : Prop :=
  ∀ (w : Nat), 2 ≤ w → ∀ a r g s t u : BitVec w, (a2bKs a r s t u).r0 = (a2bG a r g).r0

/-- R100 with the contracts of R54, R57, R65, R67, R69, R79 and R82, on the machine: every legal command completes, and its
result, recombined with the mask of R100's table, is the operation applied to the secrets that the shares on the ports
carry. -/
def Obligations.EveryResultRecombines : Prop :=
  ∀ (i : Instr) (s : State), i.legal s.cfg = true →
    ∃ t k arithmetic, resultMask i = some (k, arithmetic) ∧ exec i s = .next t ∧ t.err = 0 ∧
      secretOf arithmetic (t.out0.setWidth i.width.bits) (s.operand k i.width.bits) =
        secretResult (secretsOn s i i.width.bits) i

/-! ## The netlists -/

/-- The probe sets of R90 by name and in order (R55, R58, R64, R66, R68, R87), and their lengths. -/
def Obligations.ProbeSetNames : Prop :=
  ∀ (w : Nat), 2 ≤ w → ∀ (a b c d e f : BitVec w) (j : Nat) (site : Site),
    (a2bG a b c).lines.map Line.wire = a2bGNames w ∧ (a2bGNames w).length = 5 * w + 5 ∧
      (b2aG a b c).lines.map Line.wire = b2aGNames ∧ b2aGNames.length = 7 ∧
      (secAnd site a b c d e).lines.map Line.wire = secAndNames site ∧ (secAndNames site).length = 8 ∧
      (secXor site a b c d).lines.map Line.wire = secXorNames site ∧ (secXorNames site).length = 2 ∧
      (secShl site a b c j).lines.map Line.wire = secShlNames site ∧ (secShlNames site).length = 4 ∧
      (a2bKs a b c d e).lines.map Line.wire = a2bKsNames (prefixLevels w) ∧
      (a2bKsNames (prefixLevels w)).length = 28 * prefixLevels w - 3 ∧
      (addKs a b c d e f).lines.map Line.wire = addKsNames (prefixLevels w) ∧
      (addKsNames (prefixLevels w)).length = 28 * prefixLevels w + 4

/-- No two lines of one netlist drive wires of one name, as the spec spells the names, at any width, and no two wires that a step
shows have one name (R87, R90). -/
def Obligations.ProbeNamesAreDistinct : Prop :=
  (∀ (w : Nat) (a b c d e f : BitVec w) (j : Nat) (site : Site),
    (a2bG a b c).names.Nodup ∧ (b2aG a b c).names.Nodup ∧ (secAnd site a b c d e).names.Nodup ∧
      (secXor site a b c d).names.Nodup ∧ (secShl site a b c j).names.Nodup ∧ (a2bKs a b c d e).names.Nodup ∧
      (addKs a b c d e f).names.Nodup) ∧
    ∀ s t : State, step s = .next t → (t.wires.map fun p => p.wire.name).Nodup

/-- The operator counts of R128 for each of the seven operations, and the gate instances of R86, with the SECAND `GA` of
ADD.KS beside those of its network (derived there). -/
def Obligations.OperatorCounts : Prop :=
  ∀ (w : Nat), 2 ≤ w → ∀ (a b c d e f : BitVec w) (j : Nat) (site : Site),
    let n := prefixLevels w
    ((a2bG a b c).count .shl = w ∧ (a2bG a b c).count .and = 2 * w + 1 ∧ (a2bG a b c).count .xor = 2 * w + 4 ∧
        (a2bG a b c).count .sub = 0) ∧
      ((b2aG a b c).count .shl = 0 ∧ (b2aG a b c).count .and = 0 ∧ (b2aG a b c).count .xor = 5 ∧
        (b2aG a b c).count .sub = 2) ∧
      ((secAnd site a b c d e).count .shl = 0 ∧ (secAnd site a b c d e).count .and = 4 ∧
        (secAnd site a b c d e).count .xor = 4 ∧ (secAnd site a b c d e).count .sub = 0) ∧
      ((secXor site a b c d).count .shl = 0 ∧ (secXor site a b c d).count .and = 0 ∧
        (secXor site a b c d).count .xor = 2 ∧ (secXor site a b c d).count .sub = 0) ∧
      ((secShl site a b c j).count .shl = 2 ∧ (secShl site a b c j).count .and = 0 ∧
        (secShl site a b c j).count .xor = 2 ∧ (secShl site a b c j).count .sub = 0) ∧
      ((a2bKs a b c d e).count .shl = 4 * n ∧ (a2bKs a b c d e).count .and = 8 * n - 2 ∧
        (a2bKs a b c d e).count .xor = 16 * n - 1 ∧ (a2bKs a b c d e).count .sub = 0) ∧
      ((addKs a b c d e f).count .shl = 4 * n ∧ (addKs a b c d e f).count .and = 8 * n ∧
        (addKs a b c d e f).count .xor = 16 * n + 4 ∧ (addKs a b c d e f).count .sub = 0) ∧
      ((a2bKs a b c d e).lines.countP fun l => startsSecShl l.wire) = 2 * (n - 1) + 1 ∧
      ((a2bKs a b c d e).lines.countP fun l => startsSecAnd l.wire) = 2 * (n - 1) + 1 ∧
      ((addKs a b c d e f).lines.countP fun l => startsSecShl l.wire) = 2 * (n - 1) + 1 ∧
      ((addKs a b c d e f).lines.countP fun l => startsSecAnd l.wire) = 2 * (n - 1) + 1 + 1

/-- R98, R127: for a given command the same operators drive the same wires in the same order, whatever the data. -/
def Obligations.NetlistsAreDataIndependent : Prop :=
  ∀ (i : Instr) (s s' : State), (netOf i s).shape = (netOf i s').shape

/-! ## First-order security (R89, R93, R94)

The spec proves the first four of these for every width; the last three it requires and only enumerates at widths 2 to 5 (R94,
R95). Each statement is about settled wires, one at a time (R91), and says nothing of two wires or of glitches. -/

/-- SECAND is first-order secure at every width. -/
def Obligations.SecAndIsFirstOrderSecure : Prop := ∀ (w : Nat), 2 ≤ w → FirstOrderSecure (draws3 w) probesSecAnd

/-- SECXOR is first-order secure at every width. -/
def Obligations.SecXorIsFirstOrderSecure : Prop := ∀ (w : Nat), 2 ≤ w → FirstOrderSecure (draws2 w) probesSecXor

/-- SECSHL is first-order secure at every width and public distance. -/
def Obligations.SecShlIsFirstOrderSecure : Prop :=
  ∀ (w : Nat), 2 ≤ w → ∀ j : Nat, FirstOrderSecure (draws2 w) (probesSecShl j)

/-- B2A.G is first-order secure at every width. -/
def Obligations.B2aGIsFirstOrderSecure : Prop := ∀ (w : Nat), 2 ≤ w → FirstOrderSecure (draws2 w) probesB2aG

/-- A2B.G is first-order secure at every width: every wire of every round. -/
def Obligations.A2bGIsFirstOrderSecure : Prop := ∀ (w : Nat), 2 ≤ w → FirstOrderSecure (draws2 w) probesA2bG

/-- A2B.KS is first-order secure at every width, though its stages share the masks `s`, `t`, `u` (R86). -/
def Obligations.A2bKsIsFirstOrderSecure : Prop := ∀ (w : Nat), 2 ≤ w → FirstOrderSecure (draws4 w) probesA2bKs

/-- ADD.KS is first-order secure at every width, though its stages share the masks `s`, `t`, `u` (R86). -/
def Obligations.AddKsIsFirstOrderSecure : Prop := ∀ (w : Nat), 2 ≤ w → FirstOrderSecure (draws4 w) probesAddKs

/-- The statement of R94 on the machine: for every legal command, whatever stood on the ports before, in the experiment of R93
the wires that one step shows are first-order independent of the secrets. -/
def Obligations.EveryOperationIsFirstOrderSecure : Prop :=
  ∀ (s : State) (i : Instr), i.legal s.cfg = true → CommandIsSecure s i

/-! ## Hazards (R71, R99, R118, R120, R121, R124, derived there) -/

/-- Aliased or constant masks put an unmasked value on a named wire: SECXOR, SECSHL without a shift, B2A.G and ADD.KS with two
masks equal; B2A.G and A2B.G with the random word 0. -/
def Obligations.AliasedMasksExposeSecrets : Prop :=
  ∀ (w : Nat) (x y a m t u : BitVec w),
    wireValue (secXor .top (x ^^^ m) (y ^^^ m) m m) (.gate .top .q0) = some (x ^^^ y) ∧
      wireValue (secShl .top (x ^^^ m) m m 0) (.gate .top .h1) = some x ∧
      wireValue (b2aG (x ^^^ m) m m) .capT0 = some x ∧
      wireValue (addKs (x ^^^ m) m (y ^^^ m) m t u) (.gate .p0 .q0) = some (x ^^^ y) ∧
      wireValue (b2aG (x ^^^ m) m 0) .capA0 = some x ∧
      wireValue (a2bG a m 0) (.i 8) = some (a &&& m)

/-- The same uses are not first-order secure, so the property is not empty: SECXOR with one mask for both operands leaks `q0`,
SECAND leaks `n0`, SECSHL without a shift leaks `h1`, B2A.G with the random word 0 leaks `A0`. -/
def Obligations.AliasedMasksLeak : Prop :=
  ∀ (w : Nat), 2 ≤ w →
    WireLeaks (words w) (fun (xy : BitVec w × BitVec w) m => (secXor .top (xy.1 ^^^ m) (xy.2 ^^^ m) m m).values) 0 ∧
      WireLeaks (draws2 w)
        (fun (xy : BitVec w × BitVec w) d => (secAnd .top (xy.1 ^^^ d.1) (xy.2 ^^^ d.1) d.1 d.1 d.2).values) 0 ∧
      WireLeaks (words w) (fun (x : BitVec w) m => (secShl .top (x ^^^ m) m m 0).values) 1 ∧
      WireLeaks (words w) (fun (x : BitVec w) r => (b2aG (x ^^^ r) r 0).values) 4

/-- What a re-associated XOR chain would put on a wire, as the XOR of two values of the block's own netlists: the unmasked second
operand in SECAND, the shifted secret in SECSHL, the unmasked generate and propagate terms of a round, `A & r` at the start
of A2B.KS and `X & Y` at the start of ADD.KS. -/
def Obligations.ReassociatedChainsExposeSecrets : Prop :=
  ∀ (w : Nat) (x1 y1 s t u p g a r : BitVec w) (site site' : Site) (d : Nat),
    (∃ v0 v2 v4 v6, wireValue (secAnd site x1 y1 s t u) (.gate site .n0) = some v0 ∧
        wireValue (secAnd site x1 y1 s t u) (.gate site .n2) = some v2 ∧
        wireValue (secAnd site x1 y1 s t u) (.gate site .n4) = some v4 ∧
        wireValue (secAnd site x1 y1 s t u) (.gate site .n6) = some v6 ∧
        v0 ^^^ v2 = x1 &&& (y1 ^^^ t) ∧ v4 ^^^ v6 = s &&& (y1 ^^^ t)) ∧
      (∃ v0 v2, wireValue (secShl site x1 s t d) (.gate site .h0) = some v0 ∧
        wireValue (secShl site x1 s t d) (.gate site .h2) = some v2 ∧ v0 ^^^ v2 = (x1 ^^^ s) <<< d) ∧
      (secAnd site' (p ^^^ s) (secShl site (g ^^^ s) s t d).r0 s t u).r0 ^^^ u = p &&& g <<< d ∧
      (secAnd site' (p ^^^ s) (secShl site (p ^^^ s) s t d).r0 s t u).r0 ^^^ u = p &&& p <<< d ∧
      (∃ v1 v3, wireValue (a2bKs a r s t u) .g1 = some v1 ∧ wireValue (a2bKs a r s t u) .g3 = some v3 ∧
        v1 ^^^ v3 = a &&& r) ∧
      ∃ v, wireValue (addKs x1 s y1 r t u) (.gate .ga .z1) = some v ∧ v ^^^ u = (x1 ^^^ s) &&& (y1 ^^^ r)

/-! ## The assembler (R49, R50) -/

/-- R50, R72: REMASK and SHL assemble, and the block computes `(a ^ m) ^ k` and `shl(a, j)` for them. -/
def Obligations.PseudoInstructionsHaveTheirValue : Prop :=
  ∀ (s : State) (w : WidthTag) (a m k : BitVec w.bits), s.cfg.supports w = true →
    (∃ x t, AsmLine.assemble ⟨"REMASK", w, [a.toNat, m.toNat, k.toNat], none⟩ = some x ∧ step (s.drive x) = .next t ∧
        t.err = 0 ∧ t.out0 = driveWord ((a ^^^ m) ^^^ k) ∧ t.out1 = 0) ∧
      ∀ j < 64, ∃ x t, AsmLine.assemble ⟨"SHL", w, [a.toNat], some j⟩ = some x ∧ step (s.drive x) = .next t ∧
        t.err = 0 ∧ t.out0 = driveWord (a <<< j) ∧ t.out1 = 0

/-- R49: whatever assembles is a command the block has an operation for, in the canonical spelling, at the line's width. That a
line assembles only when its operands fit the width is the model's choice (notes/assumptions/10.md). -/
def Obligations.AssembledCommandsAreCanonical : Prop :=
  ∀ (l : AsmLine) (x : Stimulus), l.assemble = some x →
    (decode x.cmd).selectsOperation = true ∧ (decode x.cmd).canonicalDistance = true ∧
      (decode x.cmd).width = l.width ∧
      ∀ v ∈ [x.in0, x.in1, x.in2, x.in3, x.in4, x.in5], v.toNat < 2 ^ l.width.bits
end

