-- ==== Sys2Proof/Laws/State.lean ====
section
/-! SUPPORT. One lemma for each field of each update of the state, so that no later proof unfolds a record update. -/

namespace Sys2Proof.Machine

variable {w : Nat} (s : State) (net : Net w) (c : BitVec 2) (k : InPort) (v : PortWord) (x : Stimulus)

/-! ## `settle` -/

@[simp] theorem State.settle_cfg : (s.settle net).cfg = s.cfg := rfl
@[simp] theorem State.settle_cmd : (s.settle net).cmd = s.cmd := rfl
@[simp] theorem State.settle_port : (s.settle net).port k = s.port k := by cases k <;> rfl
@[simp] theorem State.settle_operand (n : Nat) : (s.settle net).operand k n = s.operand k n := by
  simp [State.operand]
@[simp] theorem State.settle_stimulus : (s.settle net).stimulus = s.stimulus := rfl
@[simp] theorem State.settle_out0 : (s.settle net).out0 = driveWord net.r0 := rfl
@[simp] theorem State.settle_out1 : (s.settle net).out1 = driveWord net.r1 := rfl
@[simp] theorem State.settle_err : (s.settle net).err = 0 := rfl
@[simp] theorem State.settle_wires : (s.settle net).wires = net.probes := rfl

/-! ## `raiseErr` -/

@[simp] theorem State.raiseErr_cfg : (s.raiseErr c).cfg = s.cfg := rfl
@[simp] theorem State.raiseErr_cmd : (s.raiseErr c).cmd = s.cmd := rfl
@[simp] theorem State.raiseErr_port : (s.raiseErr c).port k = s.port k := by cases k <;> rfl
@[simp] theorem State.raiseErr_stimulus : (s.raiseErr c).stimulus = s.stimulus := rfl
@[simp] theorem State.raiseErr_out0 : (s.raiseErr c).out0 = 0 := rfl
@[simp] theorem State.raiseErr_out1 : (s.raiseErr c).out1 = 0 := rfl
@[simp] theorem State.raiseErr_err : (s.raiseErr c).err = c := rfl
@[simp] theorem State.raiseErr_wires : (s.raiseErr c).wires = [] := rfl

/-! ## `setPort` and `drive` -/

@[simp] theorem State.setPort_cfg : (s.setPort k v).cfg = s.cfg := by cases k <;> rfl
@[simp] theorem State.setPort_cmd : (s.setPort k v).cmd = s.cmd := by cases k <;> rfl
@[simp] theorem State.setPort_port_same : (s.setPort k v).port k = v := by cases k <;> rfl
theorem State.setPort_port_other {k k' : InPort} (h : k' ≠ k) : (s.setPort k v).port k' = s.port k' := by
  cases k <;> cases k' <;> first | rfl | exact absurd rfl h
@[simp] theorem State.drive_cfg : (s.drive x).cfg = s.cfg := rfl
@[simp] theorem State.drive_cmd : (s.drive x).cmd = x.cmd := rfl
@[simp] theorem State.drive_stimulus : (s.drive x).stimulus = x := rfl
@[simp] theorem State.drive_drive (y : Stimulus) : (s.drive x).drive y = s.drive y := rfl

/-- Driving what already stands on the ports changes nothing. -/
@[simp] theorem State.drive_own : s.drive s.stimulus = s := rfl

end Sys2Proof.Machine
end

