-- ==== Sys2Proof/Laws/Distribution.lean ====
section
/-! SUPPORT. Counting over draws: a rearrangement of the draws keeps a distribution, and security is checked part by part of the
probe set. -/

namespace Sys2Proof.Safety

variable {D S α : Type} [DecidableEq α]

/-- Observations that a rearrangement of the draws turns into each other have one distribution. -/
theorem sameDistribution_of_perm {draws : List D} (φ : D → D) (hφ : (draws.map φ).Perm draws) {f g : D → α}
    (h : ∀ d, f d = g (φ d)) : SameDistribution draws f g := by
  intro v
  unfold occurrences
  rw [← hφ.countP_eq (fun d => decide (g d = v)), List.countP_map]
  simp [Function.comp_def, h]

/-- A list that holds everything once is rearranged by every bijection. -/
theorem map_perm_of_complete {draws : List D} (hn : draws.Nodup) (hc : ∀ d, d ∈ draws) (e : D ≃ D) :
    (draws.map e).Perm draws := by
  refine (List.perm_ext_iff_of_nodup (hn.map e.injective) hn).2 fun d => ?_
  exact ⟨fun _ => hc d, fun _ => List.mem_map.2 ⟨e.symm d, hc _, e.apply_symm_apply d⟩⟩

theorem SameDistribution.refl (draws : List D) (f : D → α) : SameDistribution draws f f := fun _ => rfl

/-- Two wires with different numbers of occurrences of a value witness a leak. -/
theorem not_sameDistribution {draws : List D} {f g : D → α} (v : α)
    (h : occurrences draws f v ≠ occurrences draws g v) : ¬ SameDistribution draws f g := fun hs => h (hs v)

/-! ## The words and the tuples of words -/

theorem words_nodup (w : Nat) : (words w).Nodup := by
  refine List.Nodup.map_on ?_ List.nodup_range
  intro a ha b hb h
  have ha := List.mem_range.1 ha
  have hb := List.mem_range.1 hb
  have := congrArg BitVec.toNat h
  rwa [BitVec.toNat_ofNat, BitVec.toNat_ofNat, Nat.mod_eq_of_lt ha, Nat.mod_eq_of_lt hb] at this

theorem mem_words {w : Nat} (v : BitVec w) : v ∈ words w :=
  List.mem_map.2 ⟨v.toNat, List.mem_range.2 v.isLt, by simp⟩

@[simp] theorem words_length (w : Nat) : (words w).length = 2 ^ w := by simp [words]

theorem draws2_nodup (w : Nat) : (draws2 w).Nodup := (words_nodup w).product (words_nodup w)
theorem draws3_nodup (w : Nat) : (draws3 w).Nodup := (words_nodup w).product (draws2_nodup w)
theorem draws4_nodup (w : Nat) : (draws4 w).Nodup := (words_nodup w).product (draws3_nodup w)

theorem mem_draws2 {w : Nat} (d : BitVec w × BitVec w) : d ∈ draws2 w :=
  List.mem_product.2 ⟨mem_words d.1, mem_words d.2⟩
theorem mem_draws3 {w : Nat} (d : BitVec w × BitVec w × BitVec w) : d ∈ draws3 w :=
  List.mem_product.2 ⟨mem_words d.1, mem_draws2 d.2⟩
theorem mem_draws4 {w : Nat} (d : BitVec w × BitVec w × BitVec w × BitVec w) : d ∈ draws4 w :=
  List.mem_product.2 ⟨mem_words d.1, mem_draws3 d.2⟩

/-- The draws as lists are the draws as tuples. -/
theorem drawLists_one (w : Nat) : drawLists w 1 = (words w).map fun v => [v] := by
  simp [drawLists, List.map_eq_flatMap]

theorem drawLists_two (w : Nat) : drawLists w 2 = (draws2 w).map fun d => [d.1, d.2] := by
  have h : drawLists w 2 = (words w).flatMap fun v => (drawLists w 1).map (v :: ·) := rfl
  rw [h, drawLists_one]
  simp [draws2, List.product, List.map_flatMap, List.map_map, Function.comp_def]

theorem drawLists_three (w : Nat) : drawLists w 3 = (draws3 w).map fun d => [d.1, d.2.1, d.2.2] := by
  have h : drawLists w 3 = (words w).flatMap fun v => (drawLists w 2).map (v :: ·) := rfl
  rw [h, drawLists_two]
  simp [draws3, List.product, List.map_flatMap, List.map_map, Function.comp_def]

theorem drawLists_four (w : Nat) : drawLists w 4 = (draws4 w).map fun d => [d.1, d.2.1, d.2.2.1, d.2.2.2] := by
  have h : drawLists w 4 = (words w).flatMap fun v => (drawLists w 3).map (v :: ·) := rfl
  rw [h, drawLists_three]
  simp [draws4, List.product, List.map_flatMap, List.map_map, Function.comp_def]

/-! ## Security part by part -/

/-- A probe set is secure when each of two parts is and the first part's length is fixed. -/
theorem FirstOrderSecure.append {draws : List D} {p q : S → D → List α} {n : Nat} (hn : ∀ σ d, (p σ d).length = n)
    (hp : FirstOrderSecure draws p) (hq : FirstOrderSecure draws q) :
    FirstOrderSecure draws fun σ d => p σ d ++ q σ d := by
  intro σ σ' k v
  by_cases hk : k < n
  · have h : ∀ σ, (fun d => (p σ d ++ q σ d)[k]?) = fun d => (p σ d)[k]? := fun σ =>
      funext fun d => List.getElem?_append_left (by rw [hn]; exact hk)
    rw [h, h]
    exact hp σ σ' k v
  · have h : ∀ σ, (fun d => (p σ d ++ q σ d)[k]?) = fun d => (q σ d)[k - n]? := fun σ =>
      funext fun d => by rw [List.getElem?_append_right (by rw [hn]; omega), hn]
    rw [h, h]
    exact hq σ σ' (k - n) v

/-- The empty probe set is secure. -/
theorem FirstOrderSecure.nil (draws : List D) : FirstOrderSecure draws fun (_ : S) (_ : D) => ([] : List α) :=
  fun _ _ _ _ => rfl

/-- A probe set of one wire is secure when for every two secrets a bijection of the draws turns the wire into itself. -/
theorem FirstOrderSecure.single {draws : List D} (hd : draws.Nodup) (hc : ∀ d, d ∈ draws) {f : S → D → α}
    (h : ∀ σ σ', ∃ e : D ≃ D, ∀ d, f σ d = f σ' (e d)) : FirstOrderSecure draws fun σ d => [f σ d] := by
  intro σ σ' k
  obtain ⟨e, he⟩ := h σ σ'
  refine sameDistribution_of_perm e (map_perm_of_complete hd hc e) fun d => ?_
  simp only [he d]

/-- The security statement of R94 is its seven operations and its commands: what the obligations state one by one. -/
theorem SecurityStatement.of_operations
    (hAnd : ∀ w : Nat, 2 ≤ w → FirstOrderSecure (draws3 w) probesSecAnd)
    (hXor : ∀ w : Nat, 2 ≤ w → FirstOrderSecure (draws2 w) probesSecXor)
    (hShl : ∀ w : Nat, 2 ≤ w → ∀ j : Nat, FirstOrderSecure (draws2 w) (probesSecShl j))
    (hB2a : ∀ w : Nat, 2 ≤ w → FirstOrderSecure (draws2 w) probesB2aG)
    (hA2b : ∀ w : Nat, 2 ≤ w → FirstOrderSecure (draws2 w) probesA2bG)
    (hKs : ∀ w : Nat, 2 ≤ w → FirstOrderSecure (draws4 w) probesA2bKs)
    (hAdd : ∀ w : Nat, 2 ≤ w → FirstOrderSecure (draws4 w) probesAddKs)
    (hCmd : ∀ (s : Machine.State) (i : Instr), i.legal s.cfg = true → CommandIsSecure s i) : SecurityStatement := by
  refine ⟨fun w hw i => ?_, hCmd⟩
  cases i with
  | a2bG _ _ => exact hA2b w hw
  | b2aG _ _ => exact hB2a w hw
  | secAnd _ _ => exact hAnd w hw
  | secXor _ _ => exact hXor w hw
  | secShl _ j => exact hShl w hw j.toNat
  | a2bKs _ _ => exact hKs w hw
  | addKs _ _ => exact hAdd w hw
  | reserved _ _ => trivial

end Sys2Proof.Safety
end

