-- ==== Sys2Proof/Laws/Gates.lean ====
section
/-! SUPPORT. What the gates compute, their wires and their shapes; the operators of the netlist lines. -/

namespace Sys2Proof.Machine

variable {w : Nat} (n : Wire) (a b : BitVec w) (j : Nat) (site : Site) (x1 y1 s t u : BitVec w)

@[simp] theorem xorLine_val : (xorLine n a b).val = a ^^^ b := rfl
@[simp] theorem andLine_val : (andLine n a b).val = a &&& b := rfl
@[simp] theorem subLine_val : (subLine n a b).val = a - b := rfl
@[simp] theorem shlLine_val : (shlLine n a j).val = a <<< j := rfl
@[simp] theorem xorLine_wire : (xorLine n a b).wire = n := rfl
@[simp] theorem andLine_wire : (andLine n a b).wire = n := rfl
@[simp] theorem subLine_wire : (subLine n a b).wire = n := rfl
@[simp] theorem shlLine_wire : (shlLine n a j).wire = n := rfl
@[simp] theorem xorLine_op : (xorLine n a b).op = .xor := rfl
@[simp] theorem andLine_op : (andLine n a b).op = .and := rfl
@[simp] theorem subLine_op : (subLine n a b).op = .sub := rfl
@[simp] theorem shlLine_op : (shlLine n a j).op = .shl := rfl

/-- The masked AND: a share of the AND of what the operands stand for, under `u` (the general form in R65). -/
theorem secAnd_r0 : (secAnd site x1 y1 s t u).r0 = ((x1 ^^^ s) &&& (y1 ^^^ t)) ^^^ u := by
  apply BitVec.eq_of_getLsbD_eq
  intro i _
  simp only [secAnd, xorLine_val, andLine_val, BitVec.getLsbD_xor, BitVec.getLsbD_and]
  cases x1.getLsbD i <;> cases y1.getLsbD i <;> cases s.getLsbD i <;> cases t.getLsbD i <;> cases u.getLsbD i <;> rfl

/-- The masked XOR (the general form in R67). -/
theorem secXor_r0 : (secXor site x1 y1 s u).r0 = x1 ^^^ y1 ^^^ u := rfl

/-- The masked shift: a share of the shifted value, under `t` (the general form in R69). -/
theorem secShl_r0 : (secShl site x1 s t j).r0 = ((x1 ^^^ s) <<< j) ^^^ t := by
  simp only [secShl, xorLine_val, shlLine_val, BitVec.shiftLeft_xor_distrib]
  rw [BitVec.xor_assoc, BitVec.xor_comm t, ← BitVec.xor_assoc]

@[simp] theorem secAnd_r1 : (secAnd site x1 y1 s t u).r1 = 0 := rfl
@[simp] theorem secXor_r1 : (secXor site x1 y1 s u).r1 = 0 := rfl
@[simp] theorem secShl_r1 : (secShl site x1 s t j).r1 = 0 := rfl

@[simp] theorem secAnd_lines_length : (secAnd site x1 y1 s t u).lines.length = 8 := rfl
@[simp] theorem secXor_lines_length : (secXor site x1 y1 s u).lines.length = 2 := rfl
@[simp] theorem secShl_lines_length : (secShl site x1 s t j).lines.length = 4 := rfl

/-- A distance of the width or more shifts every bit out (R69). -/
theorem secShl_r0_of_width_le (h : w ≤ j) : (secShl site x1 s t j).r0 = t := by
  rw [secShl_r0, BitVec.shiftLeft_eq_zero h, BitVec.zero_xor]

end Sys2Proof.Machine
end

