-- ==== Sys2Proof/Laws/Netlists.lean ====
section
/-! SUPPORT. The recursions of the A2B.G rounds and of the prefix network: one unfolding lemma and one length lemma each. -/

namespace Sys2Proof.Machine

variable {w : Nat}

@[simp] theorem goubinRounds_zero (a r om t0 : BitVec w) : goubinRounds a r om t0 0 = ⟨[], t0⟩ := rfl

/-- One more round (R55). -/
theorem goubinRounds_succ_t (a r om t0 : BitVec w) (k : Nat) :
    (goubinRounds a r om t0 (k + 1)).t =
      (((goubinRounds a r om t0 k).t &&& r) ^^^ om ^^^ ((goubinRounds a r om t0 k).t &&& a)) <<< 1 := rfl

theorem goubinRounds_succ_lines (a r om t0 : BitVec w) (k : Nat) :
    (goubinRounds a r om t0 (k + 1)).lines =
      (goubinRounds a r om t0 k).lines ++ (goubinRound (k + 1) a r om (goubinRounds a r om t0 k).t).lines := rfl

@[simp] theorem goubinRounds_lines_length (a r om t0 : BitVec w) (k : Nat) :
    (goubinRounds a r om t0 k).lines.length = 5 * k := by
  induction k with
  | zero => rfl
  | succ k ih => rw [goubinRounds_succ_lines, List.length_append, ih]; simp [goubinRound]; omega

@[simp] theorem prefixRounds_zero (p g s t u : BitVec w) : prefixRounds p g s t u 0 = ⟨[], p, g⟩ := rfl

theorem prefixRounds_succ (p g s t u : BitVec w) (k : Nat) :
    prefixRounds p g s t u (k + 1) =
      ⟨(prefixRounds p g s t u k).lines ++
          (prefixRound (k + 1) (2 ^ k) (prefixRounds p g s t u k).p (prefixRounds p g s t u k).g s t u).lines,
        (prefixRound (k + 1) (2 ^ k) (prefixRounds p g s t u k).p (prefixRounds p g s t u k).g s t u).p,
        (prefixRound (k + 1) (2 ^ k) (prefixRounds p g s t u k).p (prefixRounds p g s t u k).g s t u).g⟩ := rfl

@[simp] theorem prefixRound_lines_length (k d : Nat) (p g s t u : BitVec w) :
    (prefixRound k d p g s t u).lines.length = 28 := rfl

@[simp] theorem prefixFinal_lines_length (d : Nat) (p g s t u : BitVec w) :
    (prefixFinal d p g s t u).lines.length = 14 := rfl

@[simp] theorem prefixRounds_lines_length (p g s t u : BitVec w) (k : Nat) :
    (prefixRounds p g s t u k).lines.length = 28 * k := by
  induction k with
  | zero => rfl
  | succ k ih => rw [prefixRounds_succ]; simp [ih]; omega

/-- The generate word a stage ends with: generate, or propagate and the lower group's generate, under `s` (R74, R78). -/
theorem prefixRound_g (k d : Nat) (p g s t u : BitVec w) :
    (prefixRound k d (p ^^^ s) (g ^^^ s) s t u).g = (g ^^^ (p &&& g <<< d)) ^^^ s := by
  simp only [prefixRound, secXor_r0, secAnd_r0, secShl_r0]
  apply BitVec.eq_of_getLsbD_eq
  intro i hi
  simp only [BitVec.getLsbD_xor, BitVec.getLsbD_and]
  cases p.getLsbD i <;> cases g.getLsbD i <;> cases s.getLsbD i <;> cases t.getLsbD i <;> cases u.getLsbD i <;>
    simp

/-- The propagate word a full round ends with, under `s` (R74, R78). -/
theorem prefixRound_p (k d : Nat) (p g s t u : BitVec w) :
    (prefixRound k d (p ^^^ s) g s t u).p = (p &&& p <<< d) ^^^ s := by
  simp only [prefixRound, secAnd_r0, secShl_r0, xorLine_val]
  apply BitVec.eq_of_getLsbD_eq
  intro i hi
  simp only [BitVec.getLsbD_xor, BitVec.getLsbD_and]
  cases p.getLsbD i <;> cases s.getLsbD i <;> cases t.getLsbD i <;> cases u.getLsbD i <;> simp

/-- The final step's generate word is a full round's (R77). -/
theorem prefixFinal_g (k d : Nat) (p g s t u : BitVec w) :
    (prefixFinal d p g s t u).g = (prefixRound k d p g s t u).g := rfl

end Sys2Proof.Machine
end

