-- ==== Sys2Proof/Laws/Names.lean ====
section
/-! SUPPORT. The spec's spelling of a wire names it: a reading of the spelling that undoes `Wire.name`, so that the distinct
wires of a netlist have distinct names (spec/43_security_model.md rule R90). -/

namespace Sys2Proof.Machine

/-- The sites whose stem is not empty and has no number in it. -/
def plainSites : List Site :=
  [.p0, .ga, .z, .last .hg, .last .u, .last .g, .last .hp, .last .pa]

/-- All wires of a gate. -/
def gateWires : List GateWire := [.n0, .n1, .n2, .n3, .n4, .n5, .n6, .q0, .h0, .h1, .h2, .z1]

/-- The wires whose name has no dot and no number that varies. -/
def undottedWires : List Wire :=
  gateWires.map (Wire.gate .top) ++
    [.x1, .capT0, .capT1, .capT2, .capA0, .capA1, .capA, .g1, .p0, .capP0, .g0, .g2, .g3, .capG0, .g4, .e0, .e1, .e2]

/-- The sites of a full round, in round 0. -/
def roundSites : List Site := [Slot.hg, .u, .g, .hp, .pa].map (Site.round 0)

/-- The same wire in round `k`. -/
def Wire.inRound (k : Nat) : Wire → Wire
  | .gate (.round _ slot) g => .gate (.round k slot) g
  | .roundP1 _ => .roundP1 k
  | .roundP2 _ => .roundP2 k
  | n => n

/-- The number that stands before the first dot, and what follows it. -/
def readNumber (l : List Char) : Nat × List Char :=
  (Nat.ofDigitChars 10 (l.takeWhile (· != '.')) 0, l.dropWhile (· != '.'))

/-- The wire of a gate that a spelling ends in: its last two characters. -/
def readGateWire (l : List Char) : GateWire :=
  (gateWires.find? fun g => g.name.toList == l.drop (l.length - 2)).getD .n0

/-- The one of some sites whose stem stands before the last two characters of a spelling. -/
def readSite (sites : List Site) (stem : Site → List Char) (l : List Char) : Site :=
  (sites.find? fun site => stem site == l.take (l.length - 2)).getD .top

/-- The wire of a round, in round 0, that is spelt so after its number. -/
def readRound (l : List Char) : Wire :=
  if l = ['.', 'P', '1'] then .roundP1 0
  else if l = ['.', 'P', '2'] then .roundP2 0
  else .gate (readSite roundSites (fun site => site.stem.toList.drop 2) l) (readGateWire l)

/-- The wire that a spelling names. -/
def readName : List Char → Wire
  | 'i' :: l => .i (Nat.ofDigitChars 10 l 0)
  | 'k' :: l => .c (readNumber l).1 (Nat.ofDigitChars 10 ((readNumber l).2.drop 2) 0)
  | 'r' :: l => (readRound (readNumber l).2).inRound (readNumber l).1
  | l =>
    if '.' ∈ l then .gate (readSite plainSites (fun site => site.stem.toList) l) (readGateWire l)
    else (undottedWires.find? fun n => n.name.toList == l).getD .x1

/-- A number's digits end at the dot after them. -/
theorem readNumber_toDigits (k : Nat) (l : List Char) : readNumber (Nat.toDigits 10 k ++ '.' :: l) = (k, '.' :: l) := by
  have h : ∀ c ∈ Nat.toDigits 10 k, (c != '.') = true := by
    intro c hc
    have hd := Nat.isDigit_of_mem_toDigits (by decide) (by decide) hc
    simp only [bne_iff_ne]
    rintro rfl
    simp [Char.isDigit] at hd
  rw [readNumber, List.takeWhile_append_of_pos h, List.dropWhile_append_of_pos h]
  simp [Nat.ofDigitChars_ten_toDigits]

/-- A wire of a round is spelt as in round 0 but for its number. -/
theorem readName_inRound (k : Nat) {n : Wire} (l : List Char) (h : readRound ('.' :: l) = n)
    (hk : (n.inRound k).name.toList = 'r' :: (Nat.toDigits 10 k ++ '.' :: l)) :
    readName (n.inRound k).name.toList = n.inRound k := by
  simp only [hk, readName, readNumber_toDigits, h]

/-- Reading undoes spelling. -/
theorem readName_name (n : Wire) : readName n.name.toList = n := by
  cases n with
  | i k => simp [Wire.name, readName, Nat.ofDigitChars_ten_toDigits]
  | c k m => simp [Wire.name, readName, readNumber_toDigits, Nat.ofDigitChars_ten_toDigits]
  | roundP1 k => exact readName_inRound k (n := .roundP1 0) ['P', '1'] rfl (by simp [Wire.inRound, Wire.name])
  | roundP2 k => exact readName_inRound k (n := .roundP2 0) ['P', '2'] rfl (by simp [Wire.inRound, Wire.name])
  | gate site g =>
    cases site with
    | round k slot =>
      exact readName_inRound k (n := .gate (.round 0 slot) g) (slot.name.toList ++ '.' :: g.name.toList)
        (by cases slot <;> cases g <;> decide +kernel) (by simp [Wire.inRound, Wire.name, Site.stem])
    | last slot => cases slot <;> cases g <;> decide +kernel
    | _ => cases g <;> decide +kernel
  | _ => decide +kernel

/-- Distinct wires have distinct names. -/
theorem Wire.name_injective : Function.Injective Wire.name := fun m n h => by
  rw [← readName_name m, h, readName_name]

/-- The names of a netlist are distinct when its wires are. -/
theorem Net.names_nodup_iff {w : Nat} (net : Net w) : net.names.Nodup ↔ (net.lines.map Line.wire).Nodup := by
  rw [← List.nodup_map_iff Wire.name_injective, List.map_map]
  rfl

end Sys2Proof.Machine
end

