-- ==== Sys2Proof/Laws/Ops.lean ====
section
/-! SUPPORT. Everything an evaluation can do, once: the two outcomes of `evaluate`, and `exec` and `step` over them. -/

namespace Sys2Proof.Machine

variable {w : WidthTag} {net : Net w.bits} {s t : State}

/-- On a supported width an operation is evaluated. -/
theorem evaluate_supported (h : s.cfg.supports w = true) : evaluate w net s = .next (s.settle net) := by
  simp [evaluate, errWidth, h]

/-- On an unsupported width it is not. -/
theorem evaluate_unsupported (h : s.cfg.supports w = false) :
    evaluate w net s = .next (s.raiseErr (errCode false true)) := by
  simp [evaluate, errWidth, h]

/-- An evaluation has these two outcomes and no other. -/
theorem evaluate_cases (h : evaluate w net s = .next t) :
    (s.cfg.supports w = true ∧ t = s.settle net) ∨
      (s.cfg.supports w = false ∧ t = s.raiseErr (errCode false true)) := by
  cases hw : s.cfg.supports w with
  | true => exact .inl ⟨rfl, by rw [evaluate_supported hw] at h; cases h; rfl⟩
  | false => exact .inr ⟨rfl, by rw [evaluate_unsupported hw] at h; cases h; rfl⟩

/-- Everything one command does: it settles its netlist when it is legal, and raises its code when it is not. -/
theorem exec_eq (i : Instr) (s : State) :
    exec i s = .next (if i.legal s.cfg then s.settle (netOf i s) else s.raiseErr (errOf s.cfg i)) := by
  cases i <;>
    (rename_i w j
     cases hw : s.cfg.supports w <;>
       simp [exec, Instr.legal, Instr.widthSupported, Instr.selectsOperation, Instr.width, errOf, errWidth, hw,
         execA2bG, execB2aG, execSecAnd, execSecXor, execSecShl, execA2bKs, execAddKs, execReserved,
         evaluate_supported, evaluate_unsupported, netOf])

theorem exec_legal {i : Instr} (h : i.legal s.cfg = true) : exec i s = .next (s.settle (netOf i s)) := by
  simp [exec_eq, h]

theorem exec_illegal {i : Instr} (h : i.legal s.cfg = false) : exec i s = .next (s.raiseErr (errOf s.cfg i)) := by
  simp [exec_eq, h]

/-- A driven result has nothing above its width (R22). -/
theorem driveWord_toNat_lt {n : Nat} (r : BitVec n) : (driveWord r).toNat < 2 ^ n := by
  rw [driveWord, BitVec.toNat_setWidth]
  exact lt_of_le_of_lt (Nat.mod_le _ _) r.isLt

/-- A supported width fits the ports (R6). -/
theorem bits_le_wmax {c : Config} {w : WidthTag} (h : c.supports w = true) : w.bits ≤ c.wmax := by
  cases w <;> simp only [Config.supports] at h <;> simp only [WidthTag.bits, Config.wmax] <;> split <;> simp_all

/-- A result of a supported width fits the ports (R6, R22). -/
theorem fitsPort_driveWord {c : Config} {w : WidthTag} (h : c.supports w = true) (r : BitVec w.bits) :
    Safety.FitsPort c (driveWord r) :=
  lt_of_lt_of_le (driveWord_toNat_lt r) (Nat.pow_le_pow_right (by decide) (bits_le_wmax h))

/-- The netlist depends on the input ports only. -/
theorem netOf_eq_of_stimulus {s s' : State} (i : Instr) (h : s.stimulus = s'.stimulus) : netOf i s = netOf i s' := by
  cases s
  cases s'
  simp only [State.stimulus, Stimulus.mk.injEq] at h
  obtain ⟨-, rfl, rfl, rfl, rfl, rfl, rfl⟩ := h
  cases i <;> rfl

end Sys2Proof.Machine
end

