-- ==== Sys2Proof/Laws/PerInstr.lean ====
section
/-! SUPPORT. Statements about every command, one lemma for each constructor. -/

namespace Sys2Proof.Laws

/-- The operation field of a command's word is its operation code (R39, R40). -/
def OpField.Statement (i : Instr) : Prop := opField (encode i) = i.opcode

/-- The three lowest bits of `x ++ y` are those of `y`. -/
theorem extract_low_of_append (j : Distance) (c : BitVec 2) (o : BitVec 3) : opField (j ++ c ++ o) = o := by
  apply BitVec.eq_of_getLsbD_eq
  intro k hk
  rw [opField, BitVec.getLsbD_extractLsb', BitVec.getLsbD_append]
  simp [hk]

theorem OpField.a2bG (w : WidthTag) (j : Distance) : OpField.Statement (.a2bG w j) := extract_low_of_append _ _ _
theorem OpField.b2aG (w : WidthTag) (j : Distance) : OpField.Statement (.b2aG w j) := extract_low_of_append _ _ _
theorem OpField.secAnd (w : WidthTag) (j : Distance) : OpField.Statement (.secAnd w j) := extract_low_of_append _ _ _
theorem OpField.secXor (w : WidthTag) (j : Distance) : OpField.Statement (.secXor w j) := extract_low_of_append _ _ _
theorem OpField.secShl (w : WidthTag) (j : Distance) : OpField.Statement (.secShl w j) := extract_low_of_append _ _ _
theorem OpField.a2bKs (w : WidthTag) (j : Distance) : OpField.Statement (.a2bKs w j) := extract_low_of_append _ _ _
theorem OpField.addKs (w : WidthTag) (j : Distance) : OpField.Statement (.addKs w j) := extract_low_of_append _ _ _
theorem OpField.reserved (w : WidthTag) (j : Distance) : OpField.Statement (.reserved w j) :=
  extract_low_of_append _ _ _

end Sys2Proof.Laws
end

