-- ==== Sys2Proof/Tests/Slice0.lean ====
section
/-! SUPPORT. Small tests of the model. Every expected value stands in spec/ (the source's example, the vectors and tables of
spec/95_test_vectors.md, the command words of its section 0) or is worked out by hand from a rule named beside it. At the end,
for every statement with hypotheses, a concrete case that meets them. -/

namespace Sys2Proof.Tests

open Sys2Proof.Machine Sys2Proof.Safety

/-- An instance with a command and words on its input ports; its outputs hold something else. -/
def presented (hasW64 : Bool) (cmd : Cmd) (ports : List PortWord) : State :=
  { State.reset with
    cfg := ⟨hasW64⟩
    cmd := cmd
    in0 := ports.getD 0 0
    in1 := ports.getD 1 0
    in2 := ports.getD 2 0
    in3 := ports.getD 3 0
    in4 := ports.getD 4 0
    in5 := ports.getD 5 0
    out0 := 0xFF
    out1 := 0xFF
    err := 1 }

/-- What one step answers, when it answers a next state. -/
def after (s : State) : Option State :=
  match step s with
  | .next t => some t
  | .fault _ => none
  | .refused _ => none

/-- The output ports and the number of wires after one step. -/
def outputs (hasW64 : Bool) (cmd : Cmd) (ports : List PortWord) : Option (BitVec 2 × PortWord × PortWord × Nat) :=
  (after (presented hasW64 cmd ports)).map fun t => (t.err, t.out0, t.out1, t.wires.length)

/-- The values of some wires after one step, by the spec's names. -/
def wiresNamed (cmd : Cmd) (ports : List PortWord) (names : List String) : Option (List PortWord) :=
  (after (presented false cmd ports)).map fun t => (t.wires.filter fun p => names.contains p.wire.name).map Probe.value

/-! ## Encoding: words written out from the fields of R39 -/

/-- `000000 00 000`: distance 0, width tag 0, operation 0. -/
theorem test_decode_a2bG : decode 0b00000000000 = .a2bG .w8 0 := by decide
/-- `000000 01 001`. -/
theorem test_decode_b2aG : decode 0b00000001001 = .b2aG .w16 0 := by decide
/-- `000000 10 010`. -/
theorem test_decode_secAnd : decode 0b00000010010 = .secAnd .w32 0 := by decide
/-- `000000 11 011`. -/
theorem test_decode_secXor : decode 0b00000011011 = .secXor .w64 0 := by decide
/-- `111111 00 100`: distance 63 (0x7E4 in section 3.3). -/
theorem test_decode_secShl : decode 0b11111100100 = .secShl .w8 63 := by decide
/-- `000000 10 101`. -/
theorem test_decode_a2bKs : decode 0b00000010101 = .a2bKs .w32 0 := by decide
/-- `111111 00 110`: ADD.KS with an ignored distance (section 5 row 3). -/
theorem test_decode_addKs : decode 0b11111100110 = .addKs .w8 63 := by decide
/-- `000001 11 111`. -/
theorem test_decode_reserved : decode 0b00000111111 = .reserved .w64 1 := by decide
/-- `SECSHL.16 #15` is 0x1EC (section 3.3). -/
theorem test_encode_secShl : encode (.secShl .w16 15) = 0x1EC := by decide
/-- `ADD.KS.64` is 0x01E (section 0). -/
theorem test_encode_addKs : encode (.addKs .w64 0) = 0x01E := by decide
/-- A number with bit 11 set is no command word (R38). -/
theorem test_table_word_beyond_port : decodeTableWord 16 0x800 = none ∧ decodeTableWord 16 0x7FF = some (.reserved .w64 63) := by
  decide

/-! ## WellFormed: an ill-formed term for each check -/

theorem test_width_check : (Instr.a2bG .w64 0).widthSupported ⟨false⟩ = false ∧ (Instr.a2bG .w64 0).wellFormed ⟨false⟩ = false ∧
    (Instr.a2bG .w64 0).wellFormed ⟨true⟩ = true := by decide
theorem test_operation_check : (Instr.reserved .w8 0).selectsOperation = false ∧
    (Instr.reserved .w8 0).wellFormed ⟨true⟩ = false := by decide
theorem test_distance_check : (Instr.addKs .w8 1).canonicalDistance = false ∧ (Instr.addKs .w8 1).wellFormed ⟨true⟩ = false ∧
    (Instr.secShl .w8 1).wellFormed ⟨false⟩ = true := by decide

/-! ## The operations -/

/-- Section 2.1: a carry through every bit. -/
theorem test_a2bG_carry : outputs false 0x000 [0xFF, 0x01, 0x5A] = some (0, 0x01, 0, 45) := by decide
/-- Section 2.4: all 63 rounds at width 64. -/
theorem test_a2bG_64 : outputs true 0x018 [0xFFFFFFFFFFFFFFFF, 1, 0x0123456789ABCDEF] = some (0, 1, 0, 325) := by
  decide +kernel
/-- Section 2.2. -/
theorem test_b2aG : wiresNamed 0x001 [0x3C, 0x5A, 0xA7] ["T0", "T1", "T2", "g1", "A0", "A1", "A"] =
    some [0x9B, 0xF4, 0xC8, 0xFD, 0xC1, 0xC4, 0x0C] := by decide
/-- Section 2.3, row 3 of width 32: a borrow. -/
theorem test_b2aG_32 : outputs false 0x011 [0xFFFFFFFF, 1, 0xDEADBEEF] = some (0, 0xFFFFFFFD, 0, 7) := by decide
/-- Section 3.1. -/
theorem test_secAnd : wiresNamed 0x002 [0x3C, 0x11, 0x5A, 0x07, 0xC3] ["n0", "n1", "n2", "n3", "n4", "n5", "n6", "z1"] =
    some [0x10, 0xD3, 0x04, 0xD7, 0x10, 0xC7, 0x02, 0xC5] := by decide
/-- Section 3.1, other widths. -/
theorem test_secAnd_16 : outputs false 0x00A [0xFFFF, 0x0F0F, 0x1234, 0xABCD, 0x8001] = some (0, 0x24C3, 0, 8) := by decide
/-- Section 5 row 5: `in[2]`, `in[4]` and `in[5]` are ignored. -/
theorem test_secXor : outputs false 0x003 [0x3C, 0x11, 0xFFFFFFFF, 0x07, 0x99, 0x99] = some (0, 0x2A, 0, 2) := by decide
/-- Section 3.2. -/
theorem test_secXor_wires : wiresNamed 0x003 [0xC5, 0x5A, 0, 0xC3] ["q0", "z1"] = some [0x9F, 0x5C] := by decide
/-- Section 3.3. -/
theorem test_secShl : wiresNamed 0x024 [0x3C, 0x5A, 0xA5] ["h0", "h1", "h2", "z1"] = some [0x78, 0xDD, 0xB4, 0x69] := by
  decide
/-- Section 5 row 20: a distance of the width is legal. -/
theorem test_secShl_width : outputs false 0x104 [0x3C, 0x5A, 0xA5] = some (0, 0xA5, 0, 4) := by decide
/-- Section 4.1. -/
theorem test_a2bKs : wiresNamed 0x005 [0x75, 0x07, 0x5A, 0xA5, 0xC3] ["p0", "g3", "r1.G.z1", "r2.PA.n5", "f.G.q0", "x1"] =
    some [0x2F, 0x05, 0x5D, 0xC3, 0x9E, 0x7B] := by decide
/-- Section 5 row 7: upper bits and `in[5]` are ignored. -/
theorem test_a2bKs_16 : outputs false 0x00D [0x7777BCDF, 0x5555, 0xAAAA, 0xFFFF, 0, 0x1234] = some (0, 0x4761, 0, 109) := by
  decide
/-- Section 1, the source's example: 0x7B ^ 0x07 is 0x7C. -/
theorem test_addKs : outputs false 0x006 [0x3C, 0x5A, 0x11, 0x07, 0xA5, 0xC3] = some (0, 0x7B, 0x07, 88) := by decide
/-- Section 1, some of the 88 wires. -/
theorem test_addKs_wires : wiresNamed 0x006 [0x3C, 0x5A, 0x11, 0x07, 0xA5, 0xC3]
    ["P0.q0", "GA.z1", "g4", "r1.HG.h2", "r1.P1", "r2.P2", "f.U.n4", "Z.z1", "e1"] =
    some [0x2D, 0xC5, 0x9F, 0xB4, 0xF9, 0x5A, 0x40, 0x77, 0xCF] := by decide
/-- Section 5 rows 8 and 10. -/
theorem test_reserved : outputs false 0x007 [0x3C] = some (2, 0, 0, 0) ∧ outputs false 0x01F [] = some (3, 0, 0, 0) := by
  decide
/-- Section 5 row 15: on an instance with width 64 only the operation is wrong. -/
theorem test_reserved_64 : outputs true 0x01F [1, 2, 3, 4, 5, 6] = some (2, 0, 0, 0) := by decide
/-- Section 5 rows 11 and 14. -/
theorem test_unsupported_width : outputs false 0x01D [0x75, 7] = some (1, 0, 0, 0) ∧ outputs false 0x41C [1] = some (1, 0, 0, 0) := by
  decide

/-! ## Names, reset, assembler, counts -/

/-- The spelling of the wires (R55, R87). -/
theorem test_wire_names : (Wire.c 7 4).name = "k7.c4" ∧ (Wire.gate (.round 2 .pa) .n6).name = "r2.PA.n6" ∧
    (Wire.gate (.last .hg) .h0).name = "f.HG.h0" ∧ (Wire.roundP1 1).name = "r1.P1" ∧
    (Wire.gate .p0 .q0).name = "P0.q0" ∧ Wire.capP0.name = "P0" := by decide
/-- The reset state is the settled evaluation of zeros (R115). -/
theorem test_reset_steps_to_itself : step State.reset = .next State.reset := rfl
theorem test_reset_wires : State.reset.wires.map Probe.wire = a2bGNames 8 := by decide
/-- `n(w)` at 2, 3, 8, 16, 32, 33, 64 (R7, R76). -/
theorem test_prefix_levels : [2, 3, 8, 16, 32, 33, 64].map prefixLevels = [1, 2, 3, 4, 5, 6, 6] := by decide
/-- The example of R49. -/
theorem test_assemble : assembleText "ADD.KS.8 3C, 5A, 11, 07, A5, C3 -> 7B, 07" =
    some ⟨0x006, 0x3C, 0x5A, 0x11, 0x07, 0xA5, 0xC3⟩ := by decide
/-- Section 7, P3 steps 20 and 3. -/
theorem test_assemble_pseudo : assembleText "SHL.8 5C, #1" = some ⟨0x024, 0x5C, 0, 0, 0, 0, 0⟩ ∧
    assembleText "REMASK.8 C5, 5A, C3" = some ⟨0x003, 0xC5, 0x5A, 0, 0xC3, 0, 0⟩ := by decide
/-- The call form of R50. -/
theorem test_assemble_call : ((AsmLine.ofCall "masked_add" [0x3C, 0x5A, 0x11, 0x07, 0xA5, 0xC3, 8]).bind AsmLine.assemble) =
    some ⟨0x006, 0x3C, 0x5A, 0x11, 0x07, 0xA5, 0xC3⟩ := by decide
/-- A line for the reserved code, a wrong number of operands, a wrong number of digits and a distance of 64 do not assemble. -/
theorem test_assemble_refuses : assembleText "RESERVED.8 00" = none ∧ assembleText "A2B.G.8 00, 00" = none ∧
    assembleText "A2B.G.8 0, 00, 00" = none ∧ assembleText "SECSHL.8 00, 00, 00, #64" = none := by decide
/-- Section 6: SECAND at width 2, wire `n0`, secrets (1, 2). -/
theorem test_histogram_secAnd : (words 2).map (fun v => occurrences (draws3 2) (fun d => (probesSecAnd (1, 2) d)[0]?) (some v)) =
    [36, 12, 12, 4] := by decide +kernel
/-- Section 6: SECAND at width 2 with `t = s`, wire `n0`, secrets (0, 3). -/
theorem test_histogram_aliased : (words 2).map (fun v =>
    occurrences (draws2 2) (fun d => (secAnd .top (0 ^^^ d.1) (3 ^^^ d.1) d.1 d.1 d.2).values[0]?) (some v)) =
    [16, 0, 0, 0] := by decide +kernel

/-! ## Witnesses: for every statement with hypotheses, a case that meets them all -/

/-- ADD.KS.8 of section 1, as a state. -/
def sourceExample : State := presented false 0x006 [0x3C, 0x5A, 0x11, 0x07, 0xA5, 0xC3]

theorem witness_WordsBeyondThePortAreRefused : 2 ^ 11 ≤ 2048 ∧ 2047 < 2 ^ 11 ∧ decodeTableWord 16 2048 = none ∧
    decodeTableWord 16 2047 = some (decode (BitVec.ofNat 11 2047)) := by decide
theorem witness_StepRunsTheDecodedCommand : sourceExample.cmd = encode (.addKs .w8 0) ∧
    decodeTableWord 16 0x006 = some (.addKs .w8 0) := by decide
/-- A freshly driven state, with 0xFF on the outputs and `err` 1 from elsewhere: it does not meet the invariant, and its step
changes it. -/
theorem witness_EveryStepKeepsTheInvariant : InputsFit sourceExample ∧
    ∃ t, step sourceExample = .next t ∧ t ≠ sourceExample ∧ ¬ Inv sourceExample :=
  ⟨by intro k; cases k <;> decide, _, rfl, by decide +kernel, by decide +kernel⟩
/-- Boundary: the largest words of a 32-bit port, on a command of width 32 and on one that raises an error. -/
theorem witness_EveryStepKeepsTheInvariant_boundary :
    InputsFit (presented false 0x011 [0xFFFFFFFF, 1, 0xDEADBEEF]) ∧ InputsFit (presented false 0x018 [0xFFFFFFFF]) ∧
      ¬ InputsFit (presented false 0x011 [0x100000000]) :=
  ⟨by intro k; cases k <;> decide, by intro k; cases k <;> decide, fun h => absurd (h .in0) (by decide)⟩
theorem witness_EveryEvaluationIsDefined : (decode sourceExample.cmd).legal sourceExample.cfg = true := by decide
theorem witness_ResponseIgnoresEarlierEvaluations : sourceExample.cfg = { sourceExample with out0 := 0, err := 2 }.cfg ∧
    sourceExample.stimulus = { sourceExample with out0 := 0, err := 2 }.stimulus ∧
    sourceExample ≠ { sourceExample with out0 := 0, err := 2 } := by decide
/-- Section 5 rows 4 and 5: A2B.G.8 and SECXOR.8 with other words on the ports they do not read and above bit 7. -/
theorem witness_UnreadInputsAreIgnored :
    (let s := presented false 0x000 [0x75, 0x07, 0x5A]
     let s' := presented false 0x7E0 [0x175, 0xFF07, 0x5A, 0xFF, 0xFF, 0xFF]
     s.cfg = s'.cfg ∧ opField s.cmd = opField s'.cmd ∧ wtagField s.cmd = wtagField s'.cmd ∧
       (opField s.cmd = 4 → distanceField s.cmd = distanceField s'.cmd) ∧
       ∀ k ∈ Instr.reads (decode s.cmd), s.operand k 8 = s'.operand k 8) ∧
    (let s := presented false 0x024 [0x3C, 0x5A, 0xA5]
     let s' := presented false 0x024 [0x3C, 0x5A, 0xA5, 1]
     opField s.cmd = 4 ∧ distanceField s.cmd = distanceField s'.cmd ∧ s ≠ s') := by decide
theorem witness_WidthErrorExactly : wtagField (presented false 0x01D []).cmd = 3 ∧ (presented false 0x01D []).cfg.hasW64 = false ∧
    ¬ (wtagField sourceExample.cmd = 3) := by decide
theorem witness_OperationErrorExactly : opField (presented false 0x007 []).cmd = 7 ∧ ¬ (opField sourceExample.cmd = 7) := by
  decide
theorem witness_RaisingAnErrorHasNoOtherEffect : (Instr.addKs .w8 0).legal sourceExample.cfg = true ∧
    (Instr.addKs .w64 0).legal sourceExample.cfg = false ∧ (Instr.reserved .w8 0).legal sourceExample.cfg = false := by decide
/-- One command word and parameter for each row of R105's table. -/
theorem witness_ErrorCodeTable :
    ((outputs false 0x010 []).map Prod.fst = some 0 ∧ (outputs false 0x017 []).map Prod.fst = some 2) ∧
      ((outputs false 0x018 []).map Prod.fst = some 1 ∧ (outputs false 0x01F []).map Prod.fst = some 3) ∧
      ((outputs true 0x01C []).map Prod.fst = some 0 ∧ (outputs true 0x01F []).map Prod.fst = some 2) := by decide +kernel
theorem witness_OutputsAreZeroExtended : (outputs false 0x006 [0x3C]).map Prod.fst = some 0 ∧
    (outputs false 0x000 [0x3C]).map Prod.fst = some 0 ∧ (outputs false 0x007 [0x3C]).map Prod.fst = some 2 := by decide
theorem witness_UnsupportedWidthRaisesWidthError : (Instr.secShl .w64 32).width = .w64 ∧ State.reset.cfg.hasW64 = false := by
  decide
/-- Meets the hypothesis of the seven completion statements and of the pseudo-instructions, at every width. -/
theorem witness_Completes : ∀ w : WidthTag, w = .w8 ∨ w = .w16 ∨ w = .w32 → sourceExample.cfg.supports w = true := by
  intro w h
  rcases h with rfl | rfl | rfl <;> rfl
theorem witness_Completes_64 : (presented true 0x01E []).cfg.supports .w64 = true := by decide
theorem witness_SecShlCompletes_boundary : WidthTag.bits .w8 ≤ (8 : Distance).toNat ∧ ¬ WidthTag.bits .w8 ≤ (7 : Distance).toNat := by
  decide
/-- 0x3C under 0x5A is 0x66, 0x11 under 0x07 is 0x16 (section 3.1), and under 0x5A 0x3C is 0x66 again for the shift. -/
theorem witness_GateContracts : BooleanShare (0x66 : BitVec 8) 0x3C 0x5A ∧ BooleanShare (0x16 : BitVec 8) 0x11 0x07 := by
  decide
theorem witness_ArithmeticContracts : 2 ≤ 8 ∧ ArithmeticShare (0x7C : BitVec 8) 0x75 0x07 := by decide
theorem witness_BooleanContracts : 2 ≤ 8 ∧ BooleanShare (0x66 : BitVec 8) 0x3C 0x5A ∧
    BooleanShare (0x16 : BitVec 8) 0x11 0x07 := by decide
/-- The two ranges of rounds meet at `w - 1`. -/
theorem witness_GoubinRoundCountIsExact : 2 ≤ 8 ∧ 8 - 1 ≤ 7 ∧ 6 < 8 - 1 ∧
    (a2bGWith 6 (0xFF : BitVec 8) 0x01 0x5A).r0 = 0x81 ∧ (a2bGWith 31 (0xFF : BitVec 8) 0x01 0x5A).r0 = 0x01 := by decide +kernel
theorem witness_LegalCommand : (Instr.addKs .w8 0).legal State.reset.cfg = true ∧
    (randomWords (.addKs .w8 0)).length = 4 := by decide
/-- The hypothesis of the statements about every width of R8. -/
theorem witness_Widths : 2 ≤ 2 ∧ 2 ≤ 64 := by decide
theorem witness_AssembledCommandsAreCanonical : AsmLine.assemble ⟨"SECSHL", .w8, [0x3C, 0x5A, 0xA5], some 63⟩ =
    some ⟨0x7E4, 0x3C, 0x5A, 0xA5, 0, 0, 0⟩ := by decide
theorem witness_PseudoInstructions_boundary : AsmLine.assemble ⟨"SHL", .w64, [1], some 63⟩ = some ⟨0x7FC, 1, 0, 0, 0, 0, 0⟩ ∧
    AsmLine.assemble ⟨"SHL", .w64, [1], some 64⟩ = none := by decide

end Sys2Proof.Tests
end

/-! ## What the decoder says of a command word -/

namespace Sys2Proof

/-- The decoder keeps the operation field: its last row is code 7 (R40, R45). -/
@[simp] theorem decode_opcode (c : Cmd) : (decode c).opcode = opField c := by
  have hlt : (opField c).toNat < 8 := (opField c).isLt
  apply BitVec.eq_of_toNat_eq
  dsimp only [decode]
  split
  case h_8 =>
    simp only [imp_false] at *
    change 7 = (opField c).toNat
    omega
  all_goals next h => exact h.symm

/-- Whatever the operation, the width tag is that of the tag field (R41). -/
@[simp] theorem decode_width (c : Cmd) : (decode c).width = WidthTag.ofCode (wtagField c) := by
  dsimp only [decode]
  split <;> rfl

/-- Whatever the operation, the distance is the distance field (R42). -/
@[simp] theorem decode_distance (c : Cmd) : (decode c).distance = distanceField c := by
  dsimp only [decode]
  split <;> rfl

/-- The two spellings of the width of R41. -/
theorem WidthTag.bits_ofCode : ∀ b : BitVec 2, (WidthTag.ofCode b).bits = 8 <<< b.toNat := by decide

/-- The operations are the codes other than 7 (R45). -/
theorem Instr.selectsOperation_eq (i : Instr) : i.selectsOperation = !(i.opcode == 7) := by cases i <;> rfl

/-- The width check on the tag field (R6, R102). -/
theorem Machine.errWidth_ofCode (c : Config) (b : BitVec 2) :
    Machine.errWidth c (WidthTag.ofCode b) = (b == 3 && c.hasW64 == false) := by
  obtain ⟨h⟩ := c
  revert b h
  decide

/-- A legal command has a supported width (R117). -/
theorem Instr.supports_of_legal {c : Config} {i : Instr} (h : i.legal c = true) : c.supports i.width = true := by
  simp only [Instr.legal, Bool.and_eq_true] at h
  exact h.1

end Sys2Proof

/-! ## A step is `eval` -/

namespace Sys2Proof.Machine

variable {s t : State}

/-- The netlist a command selects is the `case` of R51 at the command's width, operation code and distance. -/
theorem netOf_eq_evalNet (i : Instr) (s : State) :
    netOf i s = evalNet i.width.bits i.opcode i.distance (s.operand .in0 _) (s.operand .in1 _) (s.operand .in2 _)
      (s.operand .in3 _) (s.operand .in4 _) (s.operand .in5 _) := by
  cases i <;> rfl

/-- The two causes of an error on the fields of `cmd`, as R51 tests them, are those of a command that is not legal. -/
theorem legal_decode (c : Config) (cmd : Cmd) :
    (decode cmd).legal c = !((wtagField cmd == 3 && c.hasW64 == false) || opField cmd == 7) := by
  have hw : c.supports (WidthTag.ofCode (wtagField cmd)) = !(wtagField cmd == 3 && c.hasW64 == false) := by
    rw [← errWidth_ofCode, errWidth, Bool.not_not]
  rw [Instr.legal, Instr.widthSupported, Instr.selectsOperation_eq, decode_width, decode_opcode, hw, Bool.not_or]

/-- The code of R51 on the fields of `cmd` (R105). -/
theorem errOf_decode (c : Config) (cmd : Cmd) :
    errOf c (decode cmd) = errCode (opField cmd == 7) (wtagField cmd == 3 && c.hasW64 == false) := by
  rw [errOf, Instr.selectsOperation_eq, decode_opcode, decode_width, errWidth_ofCode, Bool.not_not]

/-- R51 on a legal command answers what settling the command's netlist drives. -/
theorem eval_legal (h : (decode s.cmd).legal s.cfg = true) :
    eval s.cfg.hasW64 s.stimulus = (s.settle (netOf (decode s.cmd) s)).response := by
  have hw : 8 <<< (wtagField s.cmd).toNat = (decode s.cmd).width.bits := by
    rw [decode_width, WidthTag.bits_ofCode]
  have hok : ((wtagField s.cmd == 3 && s.cfg.hasW64 == false) || opField s.cmd == 7) = false := by
    rw [← Bool.not_eq_true', ← legal_decode, h]
  dsimp only [eval, State.stimulus]
  rw [if_neg (by rw [hok]; decide), hw, netOf_eq_evalNet, decode_opcode, decode_distance]
  rfl

/-- R51 on any other command answers what raising the command's code drives. -/
theorem eval_illegal (h : (decode s.cmd).legal s.cfg = false) :
    eval s.cfg.hasW64 s.stimulus = (s.raiseErr (errOf s.cfg (decode s.cmd))).response := by
  have hbad : ((wtagField s.cmd == 3 && s.cfg.hasW64 == false) || opField s.cmd == 7) = true := by
    rw [← Bool.not_eq_false', ← legal_decode, h]
  dsimp only [eval, State.stimulus]
  rw [if_pos hbad, errOf_decode]
  rfl

/-- A step has these two outcomes and no other. -/
theorem step_cases (h : step s = .next t) :
    ((decode s.cmd).legal s.cfg = true ∧ t = s.settle (netOf (decode s.cmd) s)) ∨
      ((decode s.cmd).legal s.cfg = false ∧ t = s.raiseErr (errOf s.cfg (decode s.cmd))) := by
  unfold step at h
  cases hl : (decode s.cmd).legal s.cfg with
  | true => exact .inl ⟨rfl, by rw [exec_legal hl] at h; cases h; rfl⟩
  | false => exact .inr ⟨rfl, by rw [exec_illegal hl] at h; cases h; rfl⟩

/-- A step of the power-up state leaves it as it is (R115). -/
theorem step_reset : step State.reset = .next State.reset := rfl

end Sys2Proof.Machine

/-! ## The invariant of the ports -/

namespace Sys2Proof.Safety

open Sys2Proof.Machine

variable {s t : State}

/-- Whatever stands on the inputs, a step ends settled: nothing it drives depends on what stood there before (R115). -/
theorem settled_of_step (h : step s = .next t) : Settled t := by
  obtain ⟨hl, rfl⟩ | ⟨hl, rfl⟩ := step_cases h
  · exact (eval_legal hl).symm
  · exact (eval_illegal hl).symm

/-- A step leaves an error with zero outputs and no wires (R104). -/
theorem errorIsSilent_of_step (h : step s = .next t) : ErrorIsSilent t := by
  obtain ⟨-, rfl⟩ | ⟨-, rfl⟩ := step_cases h
  · exact fun herr => absurd rfl herr
  · exact fun _ => ⟨rfl, rfl, rfl⟩

/-- Zero fits every port. -/
theorem fitsPort_zero (c : Config) : FitsPort c 0 := Nat.two_pow_pos _

/-- A step leaves the input ports and their width as they are, so their words still fit (R31). -/
theorem inputsFit_of_step (hs : InputsFit s) (h : step s = .next t) : InputsFit t := by
  intro k
  obtain ⟨-, rfl⟩ | ⟨-, rfl⟩ := step_cases h
  · simpa using hs k
  · simpa using hs k

/-- What a step drives on the output ports fits them, whatever stands on the inputs (R19, R22). -/
theorem outputsFit_of_step (h : step s = .next t) : FitsPort t.cfg t.out0 ∧ FitsPort t.cfg t.out1 := by
  obtain ⟨hl, rfl⟩ | ⟨-, rfl⟩ := step_cases h
  · have hw := Instr.supports_of_legal hl
    exact ⟨fitsPort_driveWord hw _, fitsPort_driveWord hw _⟩
  · exact ⟨fitsPort_zero _, fitsPort_zero _⟩

/-- The wires a step shows are words of the command's width, which the ports hold (R91). -/
theorem wiresFit_of_step (h : step s = .next t) : WiresFit t := by
  intro p hp
  obtain ⟨hl, rfl⟩ | ⟨-, rfl⟩ := step_cases h
  · obtain ⟨l, -, rfl⟩ := List.mem_map.1 hp
    exact fitsPort_driveWord (Instr.supports_of_legal hl) l.val
  · exact absurd hp List.not_mem_nil

/-- Settles O11: each part of the invariant is read off the two outcomes of a step. -/
theorem everyStepKeepsTheInvariant : Obligations.EveryStepKeepsTheInvariant := by
  intro s t hs h
  have hin := inputsFit_of_step hs h
  obtain ⟨h0, h1⟩ := outputsFit_of_step h
  exact ⟨⟨hin .in0, hin .in1, hin .in2, hin .in3, hin .in4, hin .in5, h0, h1⟩,
    wiresFit_of_step h, errorIsSilent_of_step h, settled_of_step h⟩

/-- Settles O9: the power-up state is its own step, and a step ends settled. -/
theorem resetIsASettledEvaluation : Obligations.ResetIsASettledEvaluation :=
  ⟨settled_of_step step_reset, rfl, rfl, rfl, rfl, rfl, rfl, step_reset⟩

end Sys2Proof.Safety

/-! ## Encoding a command and decoding it again -/

namespace Sys2Proof

/-- The bits 3 and 4 of a word put together as R39 says are its width code. -/
theorem wtagField_append (j : Distance) (c : BitVec 2) (o : BitVec 3) : wtagField (j ++ c ++ o) = c := by
  apply BitVec.eq_of_getLsbD_eq
  intro k hk
  rw [wtagField, BitVec.getLsbD_extractLsb', BitVec.getLsbD_append, BitVec.getLsbD_append]
  simp [hk]

/-- The bits 5 to 10 of a word put together as R39 says are its distance. -/
theorem distanceField_append (j : Distance) (c : BitVec 2) (o : BitVec 3) : distanceField (j ++ c ++ o) = j := by
  apply BitVec.eq_of_getLsbD_eq
  intro k hk
  have hge : ¬ 5 + k < 3 := by omega
  have hge' : ¬ 5 + k - 3 < 2 := by omega
  have hk' : 5 + k - 3 - 2 = k := by omega
  rw [distanceField, BitVec.getLsbD_extractLsb', BitVec.getLsbD_append, BitVec.getLsbD_append]
  simp [hk, hge, hge', hk']

@[simp] theorem opField_encode (i : Instr) : opField (encode i) = i.opcode := Laws.extract_low_of_append _ _ _
@[simp] theorem wtagField_encode (i : Instr) : wtagField (encode i) = i.width.code := wtagField_append _ _ _
@[simp] theorem distanceField_encode (i : Instr) : distanceField (encode i) = i.distance := distanceField_append _ _ _

/-- Every width is the one its code names (R41). -/
@[simp] theorem WidthTag.ofCode_code (w : WidthTag) : WidthTag.ofCode w.code = w := by cases w <;> rfl

/-- The word of a command decodes to it (R39 to R42, R45). -/
@[simp] theorem decode_encode (i : Instr) : decode (encode i) = i := by
  dsimp only [decode]
  rw [opField_encode, wtagField_encode, distanceField_encode, WidthTag.ofCode_code]
  cases i <;> rfl

/-- What an opcode-table word decodes to is what its 11 bits decode to (R38). -/
theorem decode_of_decodeTableWord {nbits n : Nat} {i : Instr} (h : decodeTableWord nbits n = some i) :
    decode (BitVec.ofNat 11 n) = i := by
  unfold decodeTableWord decodeWord at h
  by_cases hn : n < 2 ^ 11
  · rw [if_pos hn] at h
    exact Option.some.inj h
  · rw [if_neg hn] at h
    cases h

end Sys2Proof

/-! ## What every step answers, and what it depends on -/

namespace Sys2Proof.Machine

variable {s s' t t' : State}

/-- A step answers a next state, whatever stands on the ports (R25). -/
theorem step_completes (s : State) : ∃ t, step s = .next t := ⟨_, exec_eq (decode s.cmd) s⟩

/-- A step of a legal command settles the command's netlist (R51). -/
theorem step_legal (h : (decode s.cmd).legal s.cfg = true) : step s = .next (s.settle (netOf (decode s.cmd) s)) :=
  exec_legal h

/-- A step has one answer (R25). -/
theorem step_unique (h : step s = .next t) (h' : step s = .next t') : t' = t := by
  rw [h] at h'
  exact (Host.Outcome.next.inj h').symm

/-- A step leaves the input ports and the parameter as they are (R13, R31). -/
theorem sameInputs_of_step (h : step s = .next t) : Safety.SameInputs s t := by
  obtain ⟨-, rfl⟩ | ⟨-, rfl⟩ := step_cases h
  · exact ⟨rfl, rfl⟩
  · exact ⟨rfl, rfl⟩

/-- What a step drives is `eval` of the inputs it started from (R51). -/
theorem response_of_step (h : step s = .next t) : t.response = eval s.cfg.hasW64 s.stimulus := by
  obtain ⟨hcfg, hstimulus⟩ := sameInputs_of_step h
  rw [← hcfg, ← hstimulus]
  exact Safety.settled_of_step h

/-- The code is 0 when neither cause of an error is there (R105). -/
theorem errCode_eq_zero_iff : ∀ errOp errWidth : Bool, errCode errOp errWidth = 0 ↔ errOp = false ∧ errWidth = false := by
  decide

/-- A command raises no code exactly when it is legal (R105, R117). -/
theorem errOf_eq_zero_iff (c : Config) (i : Instr) : errOf c i = 0 ↔ i.legal c = true := by
  rw [errOf, errCode_eq_zero_iff, errWidth, Bool.not_eq_false', Bool.not_eq_false', Instr.legal, Instr.widthSupported,
    Bool.and_eq_true, and_comm]

/-- A step leaves `err` at 0 exactly when its command is legal (R105, R117). -/
theorem err_eq_zero_iff (h : step s = .next t) : t.err = 0 ↔ (decode s.cmd).legal s.cfg = true := by
  obtain ⟨hl, rfl⟩ | ⟨-, rfl⟩ := step_cases h
  · exact iff_of_true rfl hl
  · exact errOf_eq_zero_iff _ _

/-- Only `ADD.KS` has a second result (R22, R44). -/
theorem netOf_r1_eq_zero {i : Instr} (h : i.opcode ≠ 6) : (netOf i s).r1 = 0 := by
  cases i with
  | addKs => exact absurd rfl h
  | _ => rfl

/-- The `case` of R51 on the operands of two assignments: the ports an operation does not read, and the distance when it is not
SECSHL, have no part in it (R23). -/
theorem evalNet_congr {w : Nat} (i : Instr) {j j' : Distance} {a a' : InPort → BitVec w}
    (hj : i.opcode = 4 → j = j') (ha : ∀ k ∈ Instr.reads i, a k = a' k) :
    evalNet w i.opcode j (a .in0) (a .in1) (a .in2) (a .in3) (a .in4) (a .in5) =
      evalNet w i.opcode j' (a' .in0) (a' .in1) (a' .in2) (a' .in3) (a' .in4) (a' .in5) := by
  cases i
  case reserved => rfl
  case' secShl => obtain rfl := hj rfl
  all_goals
    simp only [Instr.reads, List.forall_mem_cons] at ha
    simp only [ha]
    rfl

/-- `eval` depends on no more of its inputs than the operation, the width, SECSHL's distance, and the low bits of the ports the
operation reads (R21, R23). -/
theorem eval_congr (hasW64 : Bool) (hop : opField s.cmd = opField s'.cmd) (hwtag : wtagField s.cmd = wtagField s'.cmd)
    (hj : opField s.cmd = 4 → distanceField s.cmd = distanceField s'.cmd)
    (hread : ∀ k ∈ Instr.reads (decode s.cmd),
      s.operand k (decode s.cmd).width.bits = s'.operand k (decode s.cmd).width.bits) :
    eval hasW64 s.stimulus = eval hasW64 s'.stimulus := by
  rw [decode_width, WidthTag.bits_ofCode] at hread
  rw [← decode_opcode] at hj
  have hnet := evalNet_congr (decode s.cmd) (a := (s.operand · _)) (a' := (s'.operand · _)) hj hread
  rw [decode_opcode] at hnet
  simp only [State.operand, State.port] at hnet
  dsimp only [eval, State.stimulus]
  rw [← hop, ← hwtag, hnet]

end Sys2Proof.Machine

/-! ## The statements about the state -/

namespace Sys2Proof.Machine

/-- Settles O8: a word that stands for `i` decodes to `i`, and a step runs what is decoded. -/
theorem stepRunsTheDecodedCommand : Obligations.StepRunsTheDecodedCommand := by
  refine ⟨fun _ => rfl, fun s i hcmd => ?_, fun s nbits n i hi => ?_⟩
  · rw [step, hcmd, decode_encode]
  · rw [← decode_of_decodeTableWord hi]
    rfl

/-- Settles O13: a step completes with one answer, and on a legal command it is the one of its netlist. -/
theorem everyEvaluationIsDefined : Obligations.EveryEvaluationIsDefined := by
  intro s
  obtain ⟨t, ht⟩ := step_completes s
  exact ⟨t, ht, fun _ => step_unique ht, fun hl => step_unique (step_legal hl) ht⟩

/-- Settles O14: neither settling a netlist nor raising a code writes an input. -/
theorem everyInstructionKeepsTheInputs : Obligations.EveryInstructionKeepsTheInputs := by
  intro i s
  cases hl : i.legal s.cfg with
  | true => exact ⟨_, exec_legal hl, rfl, rfl, State.settle_port s _⟩
  | false => exact ⟨_, exec_illegal hl, rfl, rfl, State.raiseErr_port s _⟩

/-- Settles O17: what a step drives is `eval`, which does not depend on what the operation does not read. -/
theorem unreadInputsAreIgnored : Obligations.UnreadInputsAreIgnored := by
  intro s s' hcfg hop hwtag hj hread
  obtain ⟨t, ht⟩ := step_completes s
  obtain ⟨t', ht'⟩ := step_completes s'
  refine ⟨t, t', ht, ht', ?_⟩
  rw [response_of_step ht, response_of_step ht', ← hcfg]
  exact eval_congr s.cfg.hasW64 hop hwtag hj hread

/-- Settles O23: without an error the outputs are the netlist's driven results, and an error is silent. -/
theorem outputsAreZeroExtended : Obligations.OutputsAreZeroExtended := by
  intro s
  obtain ⟨t, ht⟩ := step_completes s
  refine ⟨t, ht, fun herr => ?_, fun herr => ?_⟩
  · obtain rfl := step_unique (step_legal ((err_eq_zero_iff ht).1 herr)) ht
    refine ⟨rfl, driveWord_toNat_lt _, driveWord_toNat_lt _, fun _ => rfl, fun hop => ?_⟩
    rw [← decode_opcode] at hop
    rw [State.settle_out1, netOf_r1_eq_zero hop]
    exact BitVec.setWidth_zero _ _
  · obtain ⟨h0, h1, -⟩ := Safety.errorIsSilent_of_step ht herr
    exact ⟨h0, h1⟩

end Sys2Proof.Machine

/-! ## A sequence of evaluations -/

namespace Sys2Proof.Machine

variable {s s' t t' : State}

/-- A state is its parameter, what stands on its input ports, and what the block drives (R16, R19). -/
theorem State.eq_of_stimulus_of_response (hcfg : s.cfg = s'.cfg) (hstimulus : s.stimulus = s'.stimulus)
    (hresponse : s.response = s'.response) : s = s' := by
  cases s
  cases s'
  cases hcfg
  cases hstimulus
  cases hresponse
  rfl

/-- Steps from the same inputs end in the same state: they keep those inputs, and both drive `eval` of them (R33). -/
theorem step_congr (hinputs : Safety.SameInputs s s') (ht : step s = .next t) (ht' : step s' = .next t') : t = t' := by
  obtain ⟨hcfg, hstimulus⟩ := hinputs
  obtain ⟨htcfg, htstimulus⟩ := sameInputs_of_step ht
  obtain ⟨htcfg', htstimulus'⟩ := sameInputs_of_step ht'
  apply State.eq_of_stimulus_of_response
  · rw [htcfg, htcfg', hcfg]
  · rw [htstimulus, htstimulus', hstimulus]
  · rw [response_of_step ht, response_of_step ht', hcfg, hstimulus]

/-- A host's first evaluation is answered by its step, and the rest are asked of the state that step ends in. -/
theorem session_cons {x : Stimulus} {xs : List Stimulus} (h : step (s.drive x) = .next t) :
    session s (x :: xs) = t.response :: session t xs := by
  rw [session, h]

/-- Settles O15: steps from the same inputs end in the same state. -/
theorem responseIgnoresEarlierEvaluations : Obligations.ResponseIgnoresEarlierEvaluations := by
  intro s s' hcfg hstimulus
  obtain ⟨t, ht⟩ := step_completes s
  obtain ⟨t', ht'⟩ := step_completes s'
  exact ⟨t, t', ht, ht', step_congr ⟨hcfg.symm, hstimulus.symm⟩ ht ht'⟩

/-- Settles O16, by induction on the list of inputs, for every state the host may start from: an evaluation changes the state
of the next one, but not its parameter. -/
theorem sessionAnswersEachEvaluationAlone : Obligations.SessionAnswersEachEvaluationAlone := by
  intro s xs
  induction xs generalizing s with
  | nil => rfl
  | cons x xs ih =>
    obtain ⟨t, ht⟩ := step_completes (s.drive x)
    have hcfg : t.cfg = s.cfg := (sameInputs_of_step ht).1
    have hresponse : t.response = eval s.cfg.hasW64 x := response_of_step ht
    rw [session_cons ht, ih t, hcfg, hresponse, List.map_cons]

/-- Settles O18: a step keeps its inputs, so the step after it starts from the same ones and ends in the same state. -/
theorem stepIsIdempotent : Obligations.StepIsIdempotent := by
  intro s
  obtain ⟨t, ht⟩ := step_completes s
  obtain ⟨t', ht'⟩ := step_completes t
  obtain rfl := step_congr (sameInputs_of_step ht) ht ht'
  exact ⟨t, ht, ht'⟩

end Sys2Proof.Machine

/-! ## The fields of a command word -/

namespace Sys2Proof

/-- A command word is the sum of its fields in their places (R39). -/
theorem toNat_eq_sum_of_fields (c : Cmd) :
    c.toNat = (distanceField c).toNat * 32 + (wtagField c).toNat * 8 + (opField c).toNat := by
  have hlt : c.toNat < 2 ^ 11 := c.isLt
  simp only [distanceField, wtagField, opField, BitVec.extractLsb'_toNat, Nat.shiftRight_eq_div_pow]
  omega

/-- A command word is determined by its fields (R39). -/
theorem cmd_eq_of_fields {c c' : Cmd} (hj : distanceField c = distanceField c') (hw : wtagField c = wtagField c')
    (ho : opField c = opField c') : c = c' := by
  apply BitVec.eq_of_toNat_eq
  rw [toNat_eq_sum_of_fields c, toNat_eq_sum_of_fields c', hj, hw, ho]

/-- Every width code is that of the width it names (R41). -/
@[simp] theorem WidthTag.code_ofCode : ∀ b : BitVec 2, (WidthTag.ofCode b).code = b := by decide

/-- The reserved command is the one with operation code 7 (R45). -/
theorem Instr.opcode_eq_seven_iff (i : Instr) : i.opcode = 7 ↔ ∃ w j, i = .reserved w j := by
  constructor
  · intro h
    cases i with
    | reserved w j => exact ⟨w, j, rfl⟩
    | _ => simp [Instr.opcode] at h
  · rintro ⟨w, j, rfl⟩
    rfl

/-- Settles O1, by the fields of the encoded word. -/
theorem encodeThenDecodeIsIdentity : Obligations.EncodeThenDecodeIsIdentity := decode_encode

/-- Settles O2: the decoder keeps each of the three fields, and the encoder puts each in its place. -/
theorem decodeThenEncodeIsIdentity : Obligations.DecodeThenEncodeIsIdentity := by
  intro c
  apply cmd_eq_of_fields
  · rw [distanceField_encode, decode_distance]
  · rw [wtagField_encode, decode_width, WidthTag.code_ofCode]
  · rw [opField_encode, decode_opcode]

/-- Settles O3: the sum is that of any word's fields, read on an encoded word. -/
theorem commandWordIsSumOfFields : Obligations.CommandWordIsSumOfFields := by
  refine ⟨toNat_eq_sum_of_fields, fun i => ?_⟩
  refine ⟨distanceField_encode i, wtagField_encode i, opField_encode i, ?_⟩
  rw [toNat_eq_sum_of_fields, distanceField_encode, wtagField_encode, opField_encode]

/-- Settles O5, by running the decoder on the twelve words. -/
theorem specCommandWordsDecode : Obligations.SpecCommandWordsDecode := by
  unfold Obligations.SpecCommandWordsDecode
  decide

end Sys2Proof

/-! ## The opcode table -/

namespace Sys2Proof

/-- The mask of the opcode table keeps the operation field (R52). -/
theorem and_opcodeMask (c : Cmd) : c &&& 0x007 = (opField c).setWidth 11 := by
  apply BitVec.eq_of_toNat_eq
  have hmask : (c &&& 0x007).toNat = c.toNat % 8 := Nat.and_two_pow_sub_one_eq_mod c.toNat 3
  have hsum := toNat_eq_sum_of_fields c
  have hlt : (opField c).toNat < 2 ^ 3 := (opField c).isLt
  rw [hmask, BitVec.toNat_setWidth_of_le (by decide)]
  omega

/-- Every row of the opcode table is about one command: its mnemonic, and its operation code under the mask (R52). -/
theorem exists_instr_of_mem_opcodeTable {r : OpcodeRow} (hr : r ∈ opcodeTable) :
    ∃ i : Instr, r = ⟨i.mnemonic, 0x007, i.opcode.setWidth 11⟩ := by
  simp only [opcodeTable, List.mem_cons, List.not_mem_nil, or_false] at hr
  obtain rfl | rfl | rfl | rfl | rfl | rfl | rfl | rfl := hr
  · exact ⟨.a2bG .w8 0, rfl⟩
  · exact ⟨.b2aG .w8 0, rfl⟩
  · exact ⟨.secAnd .w8 0, rfl⟩
  · exact ⟨.secXor .w8 0, rfl⟩
  · exact ⟨.secShl .w8 0, rfl⟩
  · exact ⟨.a2bKs .w8 0, rfl⟩
  · exact ⟨.addKs .w8 0, rfl⟩
  · exact ⟨.reserved .w8 0, rfl⟩

/-- A row with the table's mask selects a word by its operation field (R52). -/
theorem selects_iff (name : String) (o : BitVec 3) (c : Cmd) :
    (OpcodeRow.mk name 0x007 (o.setWidth 11)).selects c = true ↔ o = opField c := by
  have hinj : (opField c).setWidth 11 = o.setWidth 11 ↔ opField c = o := by
    refine ⟨fun h => ?_, fun h => by rw [h]⟩
    simpa using congrArg (BitVec.setWidth 3) h
  rw [OpcodeRow.selects, beq_iff_eq, and_opcodeMask, hinj, eq_comm]

/-- A command's mnemonic is that of the word with its operation code alone (R40). -/
theorem mnemonic_decode_opcode (i : Instr) : (decode (i.opcode.setWidth 11)).mnemonic = i.mnemonic := by cases i <;> rfl

/-- The assembler's names give back a command's operation code from its mnemonic; it has none for code 7 (R40, R45). -/
theorem opcode_operationNamed (i : Instr) :
    ((Machine.operationNamed i.mnemonic).map fun op => (op .w8 0).opcode).getD 7 = i.opcode := by cases i <;> rfl

/-- Commands have one mnemonic exactly when they have one operation code (R40). -/
theorem mnemonic_eq_iff (i i' : Instr) : i.mnemonic = i'.mnemonic ↔ i.opcode = i'.opcode := by
  constructor
  · intro h
    rw [← opcode_operationNamed i, h, opcode_operationNamed]
  · intro h
    rw [← mnemonic_decode_opcode i, h, mnemonic_decode_opcode]

/-- Settles O4: both sides compare the row's operation code with the word's operation field. -/
theorem opcodeTableSelectsDecodedCommand : Obligations.OpcodeTableSelectsDecodedCommand := by
  intro c r hr
  obtain ⟨i, rfl⟩ := exists_instr_of_mem_opcodeTable hr
  rw [selects_iff, mnemonic_eq_iff, decode_opcode]

end Sys2Proof

/-! ## The classes of command words -/

namespace Sys2Proof

/-- A test that repeats with period `m` holds equally often in each of `k` blocks of `m` numbers. -/
theorem countP_range_mul_of_periodic {p : Nat → Bool} {m : Nat} (hp : Function.Periodic p m) (k : Nat) :
    (List.range (k * m)).countP p = k * (List.range m).countP p := by
  induction k with
  | zero => simp
  | succ k ih =>
    have hblock : (p ∘ fun n => k * m + n) = p := funext fun n => by
      rw [Function.comp_apply, Nat.add_comm]
      exact hp.nat_mul k n
    rw [Nat.succ_mul, List.range_add, List.countP_append, List.countP_map, hblock, ih, Nat.succ_mul]

/-- 32 numbers further the operation field is the same: only the distance has changed (R39). -/
theorem opField_ofNat_add (n : Nat) : opField (BitVec.ofNat 11 (n + 32)) = opField (BitVec.ofNat 11 n) := by
  apply BitVec.eq_of_toNat_eq
  simp only [opField, BitVec.extractLsb'_toNat, BitVec.toNat_ofNat, Nat.shiftRight_eq_div_pow]
  omega

/-- 32 numbers further the width tag is the same (R39). -/
theorem wtagField_ofNat_add (n : Nat) : wtagField (BitVec.ofNat 11 (n + 32)) = wtagField (BitVec.ofNat 11 n) := by
  apply BitVec.eq_of_toNat_eq
  simp only [wtagField, BitVec.extractLsb'_toNat, BitVec.toNat_ofNat, Nat.shiftRight_eq_div_pow]
  omega

/-- A class of commands by operation and width has as many words at each of the 64 distances as at distance 0 (R39, R47). -/
theorem countP_decode (q : Bool → WidthTag → Bool) :
    ((List.range 2048).map fun n => decode (BitVec.ofNat 11 n)).countP (fun i => q i.selectsOperation i.width) =
      64 * ((List.range 32).map fun n => decode (BitVec.ofNat 11 n)).countP fun i => q i.selectsOperation i.width := by
  rw [List.countP_map, List.countP_map]
  refine countP_range_mul_of_periodic (m := 32) (fun n => ?_) 64
  simp only [Function.comp_apply, Instr.selectsOperation_eq, decode_opcode, decode_width, opField_ofNat_add,
    wtagField_ofNat_add]

/-- Settles O6: each of the 64 distances has the same 32 words, of which 28 select an operation, 7 at width 64, and 4 do not. -/
theorem commandWordClasses : Obligations.CommandWordClasses := by
  refine ⟨?_, ?_, ?_⟩
  · exact (countP_decode fun op _ => op).trans (by decide)
  · exact (countP_decode fun op w => op && w == .w64).trans (by decide)
  · exact (countP_decode fun op _ => !op).trans (by decide)

end Sys2Proof

/-! ## One step as a refinement of R51, and the commands that raise an error -/

namespace Sys2Proof.Machine

/-- Settles O12: a step completes, drives `eval` of the inputs it started from, and keeps them. -/
theorem stepRefinesEval : Obligations.StepRefinesEval := by
  intro s
  obtain ⟨t, ht⟩ := step_completes s
  exact ⟨t, ht, response_of_step ht, sameInputs_of_step ht⟩

/-- Only width 64 can be unsupported (R6, R46). -/
theorem supports_eq_false_iff (c : Config) (w : WidthTag) : c.supports w = false ↔ w = .w64 ∧ c.hasW64 = false := by
  cases w <;> simp [Config.supports]

/-- The reserved code raises bit 1, and bit 0 beside it on an unsupported width (R45, R105). -/
theorem errOf_reserved (c : Config) (w : WidthTag) (j : Distance) :
    errOf c (.reserved w j) = if c.supports w then 2 else 3 := by
  change errCode true (!c.supports w) = _
  cases c.supports w <;> rfl

/-- An unsupported width raises bit 0, and bit 1 beside it for the reserved code (R46, R105). -/
theorem errOf_unsupported {c : Config} {i : Instr} (h : c.supports i.width = false) :
    errOf c i = if i.selectsOperation then 1 else 3 := by
  rw [errOf, errWidth, h]
  cases i.selectsOperation <;> rfl

/-- Settles O25: a command of an unsupported width is not legal, so it raises its code. -/
theorem unsupportedWidthRaisesWidthError : Obligations.UnsupportedWidthRaisesWidthError := by
  refine ⟨fun i s hw hcfg => ?_, supports_eq_false_iff⟩
  have hsup : s.cfg.supports i.width = false := (supports_eq_false_iff _ _).2 ⟨hw, hcfg⟩
  have hl : i.legal s.cfg = false := by rw [Instr.legal, Instr.widthSupported, hsup, Bool.false_and]
  rw [exec_illegal hl, errOf_unsupported hsup]
  rfl

/-- Settles O24: the reserved command is never legal, so it raises its code, and it is the command of operation code 7. -/
theorem reservedCodeRaisesOperationError : Obligations.ReservedCodeRaisesOperationError := by
  refine ⟨fun w j s => ?_, fun c => ?_⟩
  · have hl : (Instr.reserved w j).legal s.cfg = false := Bool.and_false _
    rw [exec_illegal hl, errOf_reserved]
    rfl
  · rw [← decode_opcode, Instr.opcode_eq_seven_iff]

end Sys2Proof.Machine

/-! ## The pseudo-instructions -/

namespace Sys2Proof.Machine

variable {w : WidthTag} {s : State} {x : Stimulus}

/-- A step on the word of a command runs it (R14, R38). -/
theorem step_drive_of_cmd_eq_encode {i : Instr} (hcmd : x.cmd = encode i) : step (s.drive x) = exec i (s.drive x) := by
  rw [step, State.drive_cmd, hcmd, decode_encode]

/-- SECXOR on a supported width settles its netlist (R66). -/
theorem exec_secXor (j : Distance) (hw : s.cfg.supports w = true) :
    exec (.secXor w j) s = .next (s.settle (secXor .top (s.operand .in0 w.bits) (s.operand .in1 w.bits)
      (s.operand .in2 w.bits) (s.operand .in3 w.bits))) :=
  evaluate_supported hw

/-- SECSHL on a supported width settles its netlist (R68). -/
theorem exec_secShl (j : Distance) (hw : s.cfg.supports w = true) :
    exec (.secShl w j) s = .next (s.settle (secShl .top (s.operand .in0 w.bits) (s.operand .in1 w.bits)
      (s.operand .in2 w.bits) j.toNat)) :=
  evaluate_supported hw

/-- A word driven at a width comes back as the operand of that width (R21, R22). -/
theorem operand_of_port_eq_driveWord {k : InPort} {a : BitVec w.bits} (h : s.port k = driveWord a) :
    s.operand k w.bits = a := by
  have hle : w.bits ≤ 64 := by cases w <;> decide
  rw [State.operand, h, driveWord, BitVec.setWidth_setWidth_of_le _ hle, BitVec.setWidth_eq]

/-- A port at 0 is the operand 0 (R21). -/
theorem operand_of_port_eq_zero {k : InPort} {n : Nat} (h : s.port k = 0) : s.operand k n = 0#n := by
  rw [State.operand, h]
  exact BitVec.setWidth_zero _ _

/-- The zero word is driven as zero (R22). -/
theorem driveWord_zero (n : Nat) : driveWord (0 : BitVec n) = 0 := BitVec.setWidth_zero _ _

/-- `REMASK a, m, k` stands for `SECXOR a, m, 0, k` (R50, R72). -/
theorem assemble_remask (a m k : BitVec w.bits) :
    AsmLine.assemble ⟨"REMASK", w, [a.toNat, m.toNat, k.toNat], none⟩ =
      some ⟨encode (.secXor w 0), driveWord a, driveWord m, 0, driveWord k, 0, 0⟩ := by
  have hreads : (Instr.secXor w 0#6 == Instr.secShl w 0#6) = false := beq_eq_false_iff_ne.2 nofun
  simp [AsmLine.assemble, AsmLine.expand, operationNamed, hreads, AsmLine.distanceField, Instr.arity, driveWord, a.isLt,
    m.isLt, k.isLt]

/-- `SHL a, #j` stands for `SECSHL a, 0, 0, #j` (R50). -/
theorem assemble_shl (a : BitVec w.bits) {j : Nat} (hj : j < 64) :
    AsmLine.assemble ⟨"SHL", w, [a.toNat], some j⟩ =
      some ⟨encode (.secShl w (BitVec.ofNat 6 j)), driveWord a, 0, 0, 0, 0, 0⟩ := by
  simp [AsmLine.assemble, AsmLine.expand, operationNamed, AsmLine.distanceField, Instr.arity, driveWord, a.isLt, hj]

/-- Settles O59: each line assembles to a gate's command and operands, and the step gives the gate's result. -/
theorem pseudoInstructionsHaveTheirValue : Obligations.PseudoInstructionsHaveTheirValue := by
  intro s w a m k hw
  constructor
  · refine ⟨_, _, assemble_remask a m k, (step_drive_of_cmd_eq_encode rfl).trans (exec_secXor 0 hw), rfl, ?_, ?_⟩
    · rw [State.settle_out0, secXor_r0, operand_of_port_eq_driveWord (k := .in0) rfl,
        operand_of_port_eq_driveWord (k := .in1) rfl, operand_of_port_eq_driveWord (k := .in3) rfl]
    · rw [State.settle_out1, secXor_r1, driveWord_zero]
  · intro j hj
    refine ⟨_, _, assemble_shl a hj, (step_drive_of_cmd_eq_encode rfl).trans (exec_secShl _ hw), rfl, ?_, ?_⟩
    · rw [State.settle_out0, secShl_r0, operand_of_port_eq_driveWord (k := .in0) rfl,
        operand_of_port_eq_zero (k := .in1) rfl, operand_of_port_eq_zero (k := .in2) rfl, BitVec.xor_zero,
        BitVec.xor_zero, BitVec.toNat_ofNat, Nat.mod_eq_of_lt hj]
    · rw [State.settle_out1, secShl_r1, driveWord_zero]

end Sys2Proof.Machine

/-! ## Carries and borrows -/

namespace Sys2Proof.Safety

variable {w : Nat} (a b x r r' : BitVec w) (i : Nat)

/-- The carry of the spec's section 6 is the carry of the library's ripple adder. -/
theorem carryBit_eq_carry : carryBit a b i = BitVec.carry i a b false := by
  induction i with
  | zero => exact BitVec.carry_zero.symm
  | succ i ih =>
    rw [BitVec.carry_succ, carryBit, ih]
    cases a.getLsbD i <;> cases b.getLsbD i <;> cases BitVec.carry i a b false <;> rfl

/-- A bit of a sum is the XOR of the operands' bits and the carry into it (spec/00_scope.md section 6). -/
theorem getLsbD_add_eq_xor_carryBit {i : Nat} (hi : i < w) :
    (a + b).getLsbD i = (a.getLsbD i ^^ b.getLsbD i ^^ carryBit a b i) := by
  rw [BitVec.getLsbD_add hi, carryBit_eq_carry, Bool.xor_assoc]

/-- The "or" of the carry recurrence is an "xor": two ones generate a carry and propagate none (R56). -/
theorem carryBit_succ :
    carryBit a b (i + 1) = ((carryBit a b i && (a.getLsbD i ^^ b.getLsbD i)) ^^ (a.getLsbD i && b.getLsbD i)) := by
  rw [carryBit]
  cases a.getLsbD i <;> cases b.getLsbD i <;> cases carryBit a b i <;> rfl

/-- The borrow into bit `i` of `(x ^ r) - r`: the carry of the addition of `r` that gives `x ^ r` back (R59). -/
def borrowBit : Bool := carryBit ((x ^^^ r) - r) r i

/-- A bit of `(x ^ r) - r` is the bit of `x` and the borrow into it (R59). -/
theorem getLsbD_xor_sub {i : Nat} (hi : i < w) :
    ((x ^^^ r) - r).getLsbD i = (x.getLsbD i ^^ borrowBit x r i) := by
  have h : (x ^^^ r).getLsbD i = _ :=
    (congrArg (·.getLsbD i) (BitVec.sub_add_cancel (x ^^^ r) r)).symm.trans (getLsbD_add_eq_xor_carryBit _ r hi)
  rw [BitVec.getLsbD_xor, ← borrowBit] at h
  revert h
  cases ((x ^^^ r) - r).getLsbD i <;> cases x.getLsbD i <;> cases r.getLsbD i <;> cases borrowBit x r i <;> decide

/-- For a fixed `x` the next borrow is linear in the bit of `r` and the borrow (R59). -/
theorem borrowBit_succ {i : Nat} (hi : i < w) :
    borrowBit x r (i + 1) = ((x.getLsbD i && r.getLsbD i) ^^ (!x.getLsbD i && borrowBit x r i)) := by
  rw [borrowBit, carryBit, ← borrowBit, getLsbD_xor_sub x r hi]
  cases x.getLsbD i <;> cases r.getLsbD i <;> cases borrowBit x r i <;> rfl

/-- For a fixed `x` the borrow is linear in `r` (R59). -/
theorem borrowBit_xor {i : Nat} (hi : i ≤ w) :
    borrowBit x (r ^^^ r') i = (borrowBit x r i ^^ borrowBit x r' i) := by
  induction i with
  | zero => rfl
  | succ i ih =>
    rw [borrowBit_succ _ _ hi, borrowBit_succ _ _ hi, borrowBit_succ _ _ hi, ih (Nat.le_of_succ_le hi),
      BitVec.getLsbD_xor]
    cases x.getLsbD i <;> simp

end Sys2Proof.Safety

/-! ## What B2A.G computes -/

namespace Sys2Proof.Machine

open Sys2Proof.Safety

variable {w : Nat} (x1 r g : BitVec w)

/-- The result of B2A.G does not depend on the random word (R59). -/
theorem b2aG_r0 : (b2aG x1 r g).r0 = (x1 ^^^ r) - r := by
  apply BitVec.eq_of_getLsbD_eq
  intro i hi
  change (((x1 ^^^ (g ^^^ r)) - (g ^^^ r)) ^^^ (((x1 ^^^ g) - g) ^^^ x1)).getLsbD i = _
  rw [BitVec.getLsbD_xor, BitVec.getLsbD_xor, getLsbD_xor_sub x1 _ hi, getLsbD_xor_sub x1 _ hi, getLsbD_xor_sub x1 _ hi,
    borrowBit_xor x1 g r hi.le]
  cases x1.getLsbD i <;> cases borrowBit x1 g i <;> cases borrowBit x1 r i <;> rfl

@[simp] theorem b2aG_r1 : (b2aG x1 r g).r1 = 0 := rfl

/-- The probe set of B2A.G in order, its last wire in closed form (R58, R59). -/
theorem b2aG_probes : (b2aG x1 r g).probes =
    [⟨.capT0, driveWord (x1 ^^^ g)⟩, ⟨.capT1, driveWord ((x1 ^^^ g) - g)⟩,
      ⟨.capT2, driveWord (((x1 ^^^ g) - g) ^^^ x1)⟩, ⟨.g1, driveWord (g ^^^ r)⟩, ⟨.capA0, driveWord (x1 ^^^ (g ^^^ r))⟩,
      ⟨.capA1, driveWord ((x1 ^^^ (g ^^^ r)) - (g ^^^ r))⟩, ⟨.capA, driveWord ((x1 ^^^ r) - r)⟩] := by
  rw [← b2aG_r0 x1 r g]
  rfl

/-- B2A.G on a supported width settles its netlist (R58). -/
theorem exec_b2aG {w : WidthTag} {s : State} (j : Distance) (hw : s.cfg.supports w = true) :
    exec (.b2aG w j) s = .next (s.settle (b2aG (s.operand .in0 w.bits) (s.operand .in1 w.bits)
      (s.operand .in2 w.bits))) :=
  evaluate_supported hw

/-- Settles O29: the settled netlist shows the closed result and the seven wires. -/
theorem b2aGCompletes : Obligations.B2aGCompletes := by
  intro w j s hw
  dsimp only
  rw [exec_b2aG j hw, State.settle, b2aG_r0, b2aG_r1, driveWord_zero, b2aG_probes]

/-- Settles O35: adding the mask back to the closed form gives the secret. -/
theorem b2aGMeetsItsContract : Obligations.B2aGMeetsItsContract := by
  intro w _ secret x1 r g hsecret
  rw [ArithmeticShare, b2aG_r0, BitVec.sub_add_cancel]
  exact hsecret

end Sys2Proof.Machine

/-! ## What A2B.G computes -/

namespace Sys2Proof.Machine

open Sys2Proof.Safety

variable {w : Nat} (a r g : BitVec w) (n : Nat)

/-- The wire `i8`, expanded: the random word, the propagate part of its double, and the generate word (R56 step 1). -/
theorem goubinBlind_eq (t : BitVec w) :
    (g &&& (g ^^^ r)) ^^^ ((g ^^^ (t ^^^ a)) &&& r) ^^^ (t &&& a) = g ^^^ (t &&& (a ^^^ r)) ^^^ (a &&& r) := by
  apply BitVec.eq_of_getLsbD_eq
  intro i _
  simp only [BitVec.getLsbD_xor, BitVec.getLsbD_and]
  cases a.getLsbD i <;> cases r.getLsbD i <;> cases g.getLsbD i <;> cases t.getLsbD i <;> rfl

/-- One round on a blinded word is the same round on the word without the blinding, blinded again (R56 step 2). -/
theorem goubinRound_blinded (t v : BitVec w) :
    ((t ^^^ v) &&& r) ^^^ (g ^^^ (t &&& (a ^^^ r)) ^^^ (a &&& r)) ^^^ ((t ^^^ v) &&& a) =
      g ^^^ ((v &&& r) ^^^ (a &&& r) ^^^ (v &&& a)) := by
  apply BitVec.eq_of_getLsbD_eq
  intro i _
  simp only [BitVec.getLsbD_xor, BitVec.getLsbD_and]
  cases a.getLsbD i <;> cases r.getLsbD i <;> cases g.getLsbD i <;> cases t.getLsbD i <;> cases v.getLsbD i <;> rfl

/-- The rounds of A2B.G hold, under `2g`, the rounds of the random word 0, which are the plain carry recursion (R56 step 2). -/
theorem goubinRounds_t_blinded :
    (goubinRounds a r (g ^^^ (g <<< 1 &&& (a ^^^ r)) ^^^ (a &&& r)) (g <<< 1) n).t =
      g <<< 1 ^^^ (goubinRounds a r (a &&& r) 0#w n).t := by
  induction n with
  | zero => exact BitVec.xor_zero.symm
  | succ n ih => rw [goubinRounds_succ_t, ih, goubinRound_blinded, BitVec.shiftLeft_xor_distrib, goubinRounds_succ_t]

/-- The result after any number of rounds: the random word has no part in it (R56 step 4). -/
theorem a2bGWith_r0 : (a2bGWith n a r g).r0 = a ^^^ (goubinRounds a r (a &&& r) 0#w n).t := by
  simp only [a2bGWith, xorLine_val, andLine_val, shlLine_val]
  rw [goubinBlind_eq, goubinRounds_t_blinded, BitVec.xor_comm (g <<< 1) a, BitVec.xor_assoc,
    ← BitVec.xor_assoc (g <<< 1), BitVec.xor_self, BitVec.zero_xor]

/-- No round sets bit 0. -/
theorem goubinRounds_succ_t_getLsbD_zero (om t0 : BitVec w) : (goubinRounds a r om t0 (n + 1)).t.getLsbD 0 = false := by
  simp [goubinRounds_succ_t]

/-- A round makes bit `i + 1` from bit `i` of the round before (R55). -/
theorem goubinRounds_succ_t_getLsbD_succ (om t0 : BitVec w) {i : Nat} (hi : i + 1 < w) :
    (goubinRounds a r om t0 (n + 1)).t.getLsbD (i + 1) =
      (((goubinRounds a r om t0 n).t.getLsbD i && r.getLsbD i) ^^ om.getLsbD i ^^
        ((goubinRounds a r om t0 n).t.getLsbD i && a.getLsbD i)) := by
  rw [goubinRounds_succ_t, BitVec.getLsbD_shiftLeft, Nat.add_sub_cancel]
  simp [hi]

/-- Bit `i` of the plain recursion is the carry into it from round `i` on (R56 step 3). -/
theorem goubinRounds_t_getLsbD_of_le {i : Nat} (hi : i < w) (hin : i ≤ n) :
    (goubinRounds a r (a &&& r) 0#w n).t.getLsbD i = carryBit a r i := by
  induction n generalizing i with
  | zero =>
    obtain rfl := Nat.le_zero.1 hin
    exact BitVec.getLsbD_zero
  | succ n ih =>
    cases i with
    | zero => exact goubinRounds_succ_t_getLsbD_zero a r n _ _
    | succ i =>
      rw [goubinRounds_succ_t_getLsbD_succ a r n _ _ hi, ih (Nat.lt_of_succ_lt hi) (Nat.le_of_succ_le_succ hin),
        carryBit_succ, BitVec.getLsbD_and]
      cases a.getLsbD i <;> cases r.getLsbD i <;> cases carryBit a r i <;> rfl

/-- From `w - 1` rounds on the result is the Boolean share, whatever the random word (R56, R61). -/
theorem a2bGWith_r0_of_le {n : Nat} (h : w - 1 ≤ n) : (a2bGWith n a r g).r0 = (a + r) ^^^ r := by
  rw [a2bGWith_r0]
  apply BitVec.eq_of_getLsbD_eq
  intro i hi
  rw [BitVec.getLsbD_xor, BitVec.getLsbD_xor, goubinRounds_t_getLsbD_of_le a r n hi (by omega),
    getLsbD_add_eq_xor_carryBit a r hi]
  cases a.getLsbD i <;> cases r.getLsbD i <;> cases carryBit a r i <;> rfl

/-- The result of A2B.G does not depend on the random word (R56). -/
theorem a2bG_r0 : (a2bG a r g).r0 = (a + r) ^^^ r := a2bGWith_r0_of_le a r g le_rfl

@[simp] theorem a2bG_r1 : (a2bG a r g).r1 = 0 := rfl

/-- A2B.G on a supported width settles its netlist (R55). -/
theorem exec_a2bG {w : WidthTag} {s : State} (j : Distance) (hw : s.cfg.supports w = true) :
    exec (.a2bG w j) s = .next (s.settle (a2bG (s.operand .in0 w.bits) (s.operand .in1 w.bits)
      (s.operand .in2 w.bits))) :=
  evaluate_supported hw

/-- Settles O30: the settled netlist shows the closed result. -/
theorem a2bGCompletes : Obligations.A2bGCompletes := by
  intro w j s hw
  dsimp only
  rw [exec_a2bG j hw, State.settle, a2bG_r0, a2bG_r1, driveWord_zero]

/-- Settles O34: the mask on the closed form cancels. -/
theorem a2bGMeetsItsContract : Obligations.A2bGMeetsItsContract := by
  intro w _ secret a r g hsecret
  rw [BooleanShare, a2bG_r0, BitVec.xor_assoc, BitVec.xor_self, BitVec.xor_zero]
  exact hsecret

/-- Settles O36: the closed forms undo each other. -/
theorem goubinConversionsAreInverse : Obligations.GoubinConversionsAreInverse := by
  intro w _ a x1 r g g'
  rw [b2aG_r0, a2bG_r0, a2bG_r0, b2aG_r0, BitVec.sub_add_cancel, BitVec.xor_assoc, BitVec.xor_assoc, BitVec.xor_self,
    BitVec.xor_zero, BitVec.xor_zero]
  exact ⟨BitVec.add_sub_cancel a r, rfl⟩

/-! ## Too few rounds -/

/-- On the operands that drive a carry through every bit, `n` rounds reach no bit above bit `n` (R55, R61). -/
theorem goubinRounds_t_getLsbD_of_lt {i : Nat} (hi : i < w) (hni : n < i) :
    (goubinRounds (BitVec.allOnes w) 1#w (BitVec.allOnes w &&& 1#w) 0#w n).t.getLsbD i = false := by
  induction n generalizing i with
  | zero => exact BitVec.getLsbD_zero
  | succ n ih =>
    cases i with
    | zero => exact absurd hni (Nat.not_lt_zero _)
    | succ i =>
      have hi0 : i ≠ 0 := by omega
      have hone : (1#w).getLsbD i = false := by simp [hi0]
      rw [goubinRounds_succ_t_getLsbD_succ _ _ n _ _ hi, ih (Nat.lt_of_succ_lt hi) (Nat.lt_of_succ_lt_succ hni),
        BitVec.getLsbD_and, hone]
      simp

/-- The sum of those operands is 0: the carry runs out of the word. -/
theorem allOnes_add_one : BitVec.allOnes w + 1#w = 0#w := by
  rw [← BitVec.neg_one_eq_allOnes, BitVec.add_left_neg]

/-- Fewer than `w - 1` rounds miss the carry into the bit above their number (R61). -/
theorem a2bGWith_r0_xor_ne {n : Nat} (hn : n < w - 1) :
    (a2bGWith n (BitVec.allOnes w) 1#w 0#w).r0 ^^^ 1#w ≠ BitVec.allOnes w + 1#w := by
  have hi : n + 1 < w := by omega
  have hone : (1#w).getLsbD (n + 1) = false := by simp
  intro heq
  have hbit := congrArg (·.getLsbD (n + 1)) heq
  simp only [a2bGWith_r0, allOnes_add_one, BitVec.getLsbD_xor, BitVec.getLsbD_allOnes, hi, hone,
    goubinRounds_t_getLsbD_of_lt n hi (Nat.lt_succ_self n), BitVec.getLsbD_zero] at hbit
  exact absurd hbit (by decide)

/-- Settles O37: from `w - 1` rounds on the closed form holds; with fewer, `2^w - 1` and 1 do not give their sum. -/
theorem goubinRoundCountIsExact : Obligations.GoubinRoundCountIsExact := by
  intro w _
  refine ⟨fun n a r g hn => ?_, fun n hn => ⟨_, _, _, a2bGWith_r0_xor_ne hn⟩⟩
  rw [a2bGWith_r0_of_le a r g hn, a2bG_r0]

end Sys2Proof.Machine

/-! ## What the masked gates compute -/

namespace Sys2Proof.Machine

open Sys2Proof.Safety

section

variable {w : Nat} (site : Site) (x y x1 y1 s t u : BitVec w) (j : Nat)

/-- A mask on a masked word gives the word back (R9). -/
theorem xor_mask_cancel : x ^^^ s ^^^ s = x := by
  rw [BitVec.xor_assoc, BitVec.xor_self, BitVec.xor_zero]

/-- The probe set of SECAND in order (R64). -/
theorem secAnd_probes : (secAnd site x1 y1 s t u).probes =
    [⟨.gate site .n0, driveWord (x1 &&& y1)⟩, ⟨.gate site .n1, driveWord ((x1 &&& y1) ^^^ u)⟩,
      ⟨.gate site .n2, driveWord (x1 &&& t)⟩, ⟨.gate site .n3, driveWord ((x1 &&& y1) ^^^ u ^^^ (x1 &&& t))⟩,
      ⟨.gate site .n4, driveWord (y1 &&& s)⟩,
      ⟨.gate site .n5, driveWord ((x1 &&& y1) ^^^ u ^^^ (x1 &&& t) ^^^ (y1 &&& s))⟩,
      ⟨.gate site .n6, driveWord (s &&& t)⟩,
      ⟨.gate site .z1, driveWord ((x1 &&& y1) ^^^ u ^^^ (x1 &&& t) ^^^ (y1 &&& s) ^^^ (s &&& t))⟩] := rfl

/-- The probe set of SECXOR in order (R66). -/
theorem secXor_probes : (secXor site x1 y1 s u).probes =
    [⟨.gate site .q0, driveWord (x1 ^^^ y1)⟩, ⟨.gate site .z1, driveWord (x1 ^^^ y1 ^^^ u)⟩] := rfl

/-- The probe set of SECSHL in order (R68). -/
theorem secShl_probes : (secShl site x1 s t j).probes =
    [⟨.gate site .h0, driveWord (x1 <<< j)⟩, ⟨.gate site .h1, driveWord (x1 <<< j ^^^ t)⟩,
      ⟨.gate site .h2, driveWord (s <<< j)⟩, ⟨.gate site .z1, driveWord (x1 <<< j ^^^ t ^^^ s <<< j)⟩] := rfl

variable {x y x1 y1 s t u}

/-- SECAND keeps Boolean shares: the AND of the secrets, under `u` (R65). -/
theorem secAnd_booleanShare (hx : BooleanShare x x1 s) (hy : BooleanShare y y1 t) :
    BooleanShare (x &&& y) (secAnd site x1 y1 s t u).r0 u := by
  rw [BooleanShare, secAnd_r0, xor_mask_cancel, ← hx, ← hy]

/-- SECXOR keeps Boolean shares: the XOR of the secrets, under `s`, once the mask `u` of the second has cancelled (R67). -/
theorem secXor_booleanShare (hx : BooleanShare x x1 s) (hy : BooleanShare y y1 u) :
    BooleanShare (x ^^^ y) (secXor site x1 y1 s u).r0 s := by
  rw [BooleanShare, secXor_r0, hx, hy]
  ac_rfl

/-- SECSHL keeps Boolean shares: the shifted secret, under `t` (R69). -/
theorem secShl_booleanShare (hx : BooleanShare x x1 s) : BooleanShare (x <<< j) (secShl site x1 s t j).r0 t := by
  rw [BooleanShare, secShl_r0, xor_mask_cancel, ← hx]

end

/-- SECAND on a supported width settles its netlist (R64). -/
theorem exec_secAnd {w : WidthTag} {s : State} (j : Distance) (hw : s.cfg.supports w = true) :
    exec (.secAnd w j) s = .next (s.settle (secAnd .top (s.operand .in0 w.bits) (s.operand .in1 w.bits)
      (s.operand .in2 w.bits) (s.operand .in3 w.bits) (s.operand .in4 w.bits))) :=
  evaluate_supported hw

/-- Settles O26: the settled netlist shows the closed result and the eight wires. -/
theorem secAndCompletes : Obligations.SecAndCompletes := by
  intro w j s hw
  dsimp only
  rw [exec_secAnd j hw, State.settle, secAnd_r0, secAnd_r1, driveWord_zero, secAnd_probes]

/-- Settles O27: the settled netlist shows the result and the two wires, and the word on `in[2]` has no part in it. -/
theorem secXorCompletes : Obligations.SecXorCompletes := by
  intro w j s hw
  dsimp only
  rw [exec_secXor j hw, State.settle, secXor_r0, secXor_r1, driveWord_zero, secXor_probes]

/-- Settles O28: the settled netlist shows the closed result and the four wires; from the width on the shift leaves nothing
but `t`. -/
theorem secShlCompletes : Obligations.SecShlCompletes := by
  intro w j s hw
  dsimp only
  refine ⟨?_, fun hj => ?_⟩
  · rw [exec_secShl j hw, State.settle, secShl_r0, secShl_r1, driveWord_zero, secShl_probes]
  · rw [← secShl_r0 j.toNat .top, secShl_r0_of_width_le _ _ _ _ _ hj]

/-- Settles O33: the contract of each gate. -/
theorem gateContracts : Obligations.GateContracts :=
  fun _ site _ _ _ _ _ _ _ j =>
    ⟨secAnd_booleanShare site, secXor_booleanShare site, secShl_booleanShare site j⟩

end Sys2Proof.Machine

/-! ## What a re-associated XOR chain would put on a wire -/

namespace Sys2Proof.Machine

open Sys2Proof.Safety

section

variable {w : Nat} (site site' : Site) (x1 y1 p g a r s t u : BitVec w) (d : Nat)

/-- The value on a named wire is that of the first line that drives it. -/
theorem wireValue_cons (l : Line w) (ls : List (Line w)) (r0 r1 : BitVec w) (n : Wire) :
    wireValue ⟨l :: ls, r0, r1⟩ n = if l.wire = n then some l.val else wireValue ⟨ls, r0, r1⟩ n := by
  rw [wireValue, wireValue, List.find?_cons]
  by_cases h : l.wire = n
  · rw [if_pos h, beq_iff_eq.2 h, Option.map_some]
  · rw [if_neg h, beq_eq_false_iff_ne.2 h]

/-- The four product wires of SECAND (R64). -/
theorem wireValue_secAnd_n0 : wireValue (secAnd site x1 y1 s t u) (.gate site .n0) = some (x1 &&& y1) := by
  simp [secAnd, wireValue_cons]
theorem wireValue_secAnd_n2 : wireValue (secAnd site x1 y1 s t u) (.gate site .n2) = some (x1 &&& t) := by
  simp [secAnd, wireValue_cons]
theorem wireValue_secAnd_n4 : wireValue (secAnd site x1 y1 s t u) (.gate site .n4) = some (y1 &&& s) := by
  simp [secAnd, wireValue_cons]
theorem wireValue_secAnd_n6 : wireValue (secAnd site x1 y1 s t u) (.gate site .n6) = some (s &&& t) := by
  simp [secAnd, wireValue_cons]

/-- The two shifted words of SECSHL (R68). -/
theorem wireValue_secShl_h0 : wireValue (secShl site x1 s t d) (.gate site .h0) = some (x1 <<< d) := by
  simp [secShl, wireValue_cons]
theorem wireValue_secShl_h2 : wireValue (secShl site x1 s t d) (.gate site .h2) = some (s <<< d) := by
  simp [secShl, wireValue_cons]

/-- The two product wires of A2B.KS (R80). -/
theorem wireValue_a2bKs_g1 : wireValue (a2bKs a r s t u) .g1 = some ((a ^^^ t) &&& r) := rfl
theorem wireValue_a2bKs_g3 : wireValue (a2bKs a r s t u) .g3 = some (t &&& r) := rfl

/-- The result of the gate `GA` of ADD.KS (R83). -/
theorem wireValue_addKs_ga_z1 :
    wireValue (addKs x1 s y1 r t u) (.gate .ga .z1) = some (secAnd .ga x1 y1 s r u).r0 := rfl

/-- AND distributes over XOR. -/
theorem and_xor_and_eq (a b c : BitVec w) : (a &&& b) ^^^ (a &&& c) = a &&& (b ^^^ c) := by
  apply BitVec.eq_of_getLsbD_eq
  intro i _
  simp only [BitVec.getLsbD_xor, BitVec.getLsbD_and]
  exact (Bool.and_xor_distrib_left _ _ _).symm

/-- A round's SECAND of a propagate word with a shifted word, once its mask `u` is gone: nothing is left to hide them
(R75, R118). -/
theorem secAnd_secShl_xor_mask :
    (secAnd site' (p ^^^ s) (secShl site (g ^^^ s) s t d).r0 s t u).r0 ^^^ u = p &&& g <<< d := by
  have hp : BooleanShare p (p ^^^ s) s := (xor_mask_cancel p s).symm
  have hg : BooleanShare g (g ^^^ s) s := (xor_mask_cancel g s).symm
  exact (secAnd_booleanShare site' hp (secShl_booleanShare site d hg)).symm

end

/-- Settles O58: each value is read off its wire; a mask that two of them share cancels in their XOR, and so do the two shares of
a secret. -/
theorem reassociatedChainsExposeSecrets : Obligations.ReassociatedChainsExposeSecrets := by
  intro w x1 y1 s t u p g a r site site' d
  refine ⟨?_, ?_, secAnd_secShl_xor_mask .., secAnd_secShl_xor_mask .., ?_, ?_⟩
  · refine ⟨_, _, _, _, wireValue_secAnd_n0 .., wireValue_secAnd_n2 .., wireValue_secAnd_n4 .., wireValue_secAnd_n6 ..,
      and_xor_and_eq .., ?_⟩
    rw [BitVec.and_comm y1 s, and_xor_and_eq]
  · exact ⟨_, _, wireValue_secShl_h0 .., wireValue_secShl_h2 .., (BitVec.shiftLeft_xor_distrib x1 s d).symm⟩
  · refine ⟨_, _, wireValue_a2bKs_g1 .., wireValue_a2bKs_g3 .., ?_⟩
    rw [BitVec.and_comm _ r, BitVec.and_comm t r, and_xor_and_eq, xor_mask_cancel, BitVec.and_comm]
  · refine ⟨_, wireValue_addKs_ga_z1 .., ?_⟩
    rw [secAnd_r0, xor_mask_cancel]

end Sys2Proof.Machine

/-! ## What the shared Kogge-Stone network computes -/

namespace Sys2Proof.Machine

open Sys2Proof.Safety

section

variable {w : Nat} (p g a b s t u : BitVec w) (k : Nat)

/-- Every round ends with the two words of the unmasked recursion, both under `s` (R74). -/
theorem prefixRounds_masked :
    (prefixRounds (p ^^^ s) (g ^^^ s) s t u k).p = (plainRounds p g k).1 ^^^ s ∧
      (prefixRounds (p ^^^ s) (g ^^^ s) s t u k).g = (plainRounds p g k).2 ^^^ s := by
  induction k with
  | zero => exact ⟨rfl, rfl⟩
  | succ k ih =>
    obtain ⟨ihp, ihg⟩ := ih
    rw [prefixRounds_succ, ihp, ihg]
    exact ⟨prefixRound_p _ _ _ ((plainRounds p g k).2 ^^^ s) s t u, prefixRound_g ..⟩

/-- The final step ends with the generate word of one more full round (R77). -/
theorem prefixNet_g_eq_prefixRounds_g :
    (prefixNet p g s t u).g = (prefixRounds p g s t u (prefixLevels w - 1 + 1)).g := rfl

/-- After `k` rounds a bit of the generate word is the carry out of a group of `2^k` positions, and a bit of the propagate word
says whether the carry into the group runs through it; a group that reaches below position 0 has no carry into it (R78). -/
theorem carryBit_eq_plainRounds {i : Nat} (hi : i < w) :
    carryBit a b (i + 1) =
      ((plainRounds (a ^^^ b) (a &&& b) k).2.getLsbD i ^^
        ((plainRounds (a ^^^ b) (a &&& b) k).1.getLsbD i && carryBit a b (i + 1 - 2 ^ k))) := by
  induction k generalizing i with
  | zero =>
    rw [carryBit_succ, plainRounds, BitVec.getLsbD_xor, BitVec.getLsbD_and, pow_zero, Nat.add_sub_cancel, Bool.xor_comm,
      Bool.and_comm (carryBit a b i)]
  | succ k ih =>
    simp only [plainRounds, BitVec.getLsbD_xor, BitVec.getLsbD_and, BitVec.getLsbD_shiftLeft]
    rw [ih hi]
    by_cases hk : i < 2 ^ k
    · have hfirst : i + 1 - 2 ^ k = 0 := by omega
      simp [hfirst, hk, carryBit]
    · have hlower : i + 1 - 2 ^ k = i - 2 ^ k + 1 := by omega
      have hgroup : i - 2 ^ k + 1 - 2 ^ k = i + 1 - 2 ^ (k + 1) := by rw [pow_succ]; omega
      rw [hlower, ih (Nat.lt_of_le_of_lt (Nat.sub_le i (2 ^ k)) hi), hgroup]
      simp [hi, hk, Bool.and_xor_distrib_left, Bool.and_assoc]

/-- The generate word after as many rounds as the network has, counting its final step (R76, R78). -/
def networkCarries : BitVec w := (plainRounds (a ^^^ b) (a &&& b) (prefixLevels w - 1 + 1)).2

/-- The network has enough rounds for its groups to reach position 0 everywhere (R76). -/
theorem le_two_pow_prefixLevels (w : Nat) : w ≤ 2 ^ (prefixLevels w - 1 + 1) :=
  (Nat.le_pow_clog Nat.one_lt_two w).trans (Nat.pow_le_pow_right Nat.two_pos (by rw [prefixLevels]; omega))

/-- After all its rounds the network has the carry out of every position (R78). -/
theorem getLsbD_networkCarries {i : Nat} (hi : i < w) : (networkCarries a b).getLsbD i = carryBit a b (i + 1) := by
  have hreach : i + 1 - 2 ^ (prefixLevels w - 1 + 1) = 0 := Nat.sub_eq_zero_of_le (hi.trans_le (le_two_pow_prefixLevels w))
  rw [carryBit_eq_plainRounds a b (prefixLevels w - 1 + 1) hi, hreach, carryBit, Bool.and_false, Bool.xor_false,
    networkCarries]

/-- On the propagate and generate words of a sum under `s` the network returns the carries under `s` (R78). -/
theorem prefixNet_g :
    (prefixNet ((a ^^^ b) ^^^ s) ((a &&& b) ^^^ s) s t u).g = networkCarries a b ^^^ s := by
  rw [prefixNet_g_eq_prefixRounds_g]
  exact (prefixRounds_masked _ _ s t u _).2

/-- A sum is the XOR of its operands and of the carries out of the positions below (R78). -/
theorem add_eq_xor_networkCarries : a + b = a ^^^ b ^^^ networkCarries a b <<< 1 := by
  apply BitVec.eq_of_getLsbD_eq
  intro i hi
  rw [getLsbD_add_eq_xor_carryBit a b hi, BitVec.getLsbD_xor, BitVec.getLsbD_xor, BitVec.getLsbD_shiftLeft]
  cases i with
  | zero => simp [carryBit]
  | succ i => simp [hi, getLsbD_networkCarries a b (Nat.lt_of_succ_lt hi)]

end

/-- Settles O39: without its mask the network's result is the carry word, bit by bit and in the sum. -/
theorem prefixNetworkComputesTheCarries : Obligations.PrefixNetworkComputesTheCarries := by
  intro w _ a b s t u
  dsimp only
  rw [prefixNet_g, xor_mask_cancel]
  exact ⟨fun i hi => getLsbD_networkCarries a b hi, add_eq_xor_networkCarries a b⟩

/-- Settles O38: the rounds step as the unmasked recursion does, and each gate puts its result under its own mask. -/
theorem prefixStagesStayMasked : Obligations.PrefixStagesStayMasked := by
  intro w p g s t u k
  obtain ⟨hp, hg⟩ := prefixRounds_masked p g s t u k
  refine ⟨hp, hg, fun site site' d => ?_⟩
  have hshl : (secShl site (g ^^^ s) s t d).r0 = g <<< d ^^^ t := by rw [secShl_r0, xor_mask_cancel]
  refine ⟨hshl, ?_⟩
  rw [hshl, secAnd_r0, xor_mask_cancel, xor_mask_cancel]

end Sys2Proof.Machine

/-! ## What A2B.KS and ADD.KS compute -/

namespace Sys2Proof.Machine

open Sys2Proof.Safety

section

variable {w : Nat} (a b r x1 y1 s t u : BitVec w)

/-- A mask taken off again after another word has been combined in. -/
theorem xor_mask_cancel_around : a ^^^ s ^^^ b ^^^ s = a ^^^ b := by
  rw [BitVec.xor_assoc a s b, BitVec.xor_comm s b, ← BitVec.xor_assoc, xor_mask_cancel]

/-- A sum under the mask of its second operand is the first operand and the carries (R81, R84). -/
theorem add_xor_right : (a + b) ^^^ b = a ^^^ networkCarries a b <<< 1 := by
  rw [add_eq_xor_networkCarries, xor_mask_cancel_around]

/-- The product that A2B.KS makes of its shares is the generate word: `t` masks it and cancels (R80). -/
theorem a2bKs_generate : s ^^^ ((a ^^^ t) &&& r) ^^^ (t &&& r) = (a &&& r) ^^^ s := by
  rw [BitVec.xor_assoc, BitVec.and_comm (a ^^^ t), BitVec.and_comm t, and_xor_and_eq, xor_mask_cancel, BitVec.and_comm,
    BitVec.xor_comm]

/-- The result of A2B.KS does not depend on `s`, `t`, `u` (R81). -/
theorem a2bKs_r0 : (a2bKs a r s t u).r0 = (a + r) ^^^ r := by
  have hp : a ^^^ s ^^^ r = (a ^^^ r) ^^^ s := by ac_rfl
  simp only [a2bKs, xorLine_val, andLine_val, shlLine_val]
  rw [hp, a2bKs_generate, prefixNet_g, BitVec.shiftLeft_xor_distrib, xor_mask_cancel_around, add_xor_right,
    BitVec.xor_comm]

/-- The first result of ADD.KS is the sum of the secrets under the second operand's mask (R84). -/
theorem addKs_r0 : (addKs x1 s y1 r t u).r0 = ((x1 ^^^ s) + (y1 ^^^ r)) ^^^ r := by
  have hp : x1 ^^^ y1 ^^^ r = ((x1 ^^^ s) ^^^ (y1 ^^^ r)) ^^^ s := by
    rw [xor_mask_cancel_around, BitVec.xor_assoc]
  simp only [addKs, xorLine_val, shlLine_val, secXor_r0, secAnd_r0]
  rw [hp, xor_mask_cancel_around _ s, prefixNet_g, BitVec.shiftLeft_xor_distrib, ← BitVec.xor_assoc, xor_mask_cancel,
    add_eq_xor_networkCarries, ← BitVec.xor_assoc _ y1 r, xor_mask_cancel_around _ _ r]
  ac_rfl

@[simp] theorem a2bKs_r1 : (a2bKs a r s t u).r1 = 0 := rfl
@[simp] theorem addKs_r1 : (addKs x1 s y1 r t u).r1 = r := rfl

end

/-- A2B.KS on a supported width settles its netlist (R80). -/
theorem exec_a2bKs {w : WidthTag} {s : State} (j : Distance) (hw : s.cfg.supports w = true) :
    exec (.a2bKs w j) s = .next (s.settle (a2bKs (s.operand .in0 w.bits) (s.operand .in1 w.bits)
      (s.operand .in2 w.bits) (s.operand .in3 w.bits) (s.operand .in4 w.bits))) :=
  evaluate_supported hw

/-- ADD.KS on a supported width settles its netlist (R83). -/
theorem exec_addKs {w : WidthTag} {s : State} (j : Distance) (hw : s.cfg.supports w = true) :
    exec (.addKs w j) s = .next (s.settle (addKs (s.operand .in0 w.bits) (s.operand .in1 w.bits)
      (s.operand .in2 w.bits) (s.operand .in3 w.bits) (s.operand .in4 w.bits) (s.operand .in5 w.bits))) :=
  evaluate_supported hw

/-- Settles O31: the settled netlist shows the closed result. -/
theorem a2bKsCompletes : Obligations.A2bKsCompletes := by
  intro w j s hw
  dsimp only
  rw [exec_a2bKs j hw, State.settle, a2bKs_r0, a2bKs_r1, driveWord_zero]

/-- Settles O32: the settled netlist shows both results. -/
theorem addKsCompletes : Obligations.AddKsCompletes := by
  intro w j s hw
  dsimp only
  rw [exec_addKs j hw, State.settle, addKs_r0, addKs_r1]

/-- Settles O40: the mask on the closed form cancels. -/
theorem a2bKsMeetsItsContract : Obligations.A2bKsMeetsItsContract := by
  intro w _ secret a r s t u hsecret
  rw [BooleanShare, a2bKs_r0, xor_mask_cancel]
  exact hsecret

/-- Settles O41: the closed form adds the two secrets, and its mask is the second result. -/
theorem addKsMeetsItsContract : Obligations.AddKsMeetsItsContract := by
  intro w _ x y x1 s y1 r t u hx hy
  refine ⟨?_, addKs_r1 ..⟩
  rw [BooleanShare, addKs_r0, addKs_r1, xor_mask_cancel, ← hx, ← hy]

/-- Settles O42: both converters have one closed form. -/
theorem convertersAgree : Obligations.ConvertersAgree := by
  intro w _ a r g s t u
  rw [a2bKs_r0, a2bG_r0]

end Sys2Proof.Machine

/-! ## The wires of the netlists and their names -/

namespace Sys2Proof.Machine

open Sys2Proof.Safety

/-- The number of the round that a wire belongs to, if it belongs to a numbered one (R55, R75). -/
def Wire.roundNumber : Wire → Option Nat
  | .gate (.round k _) _ => some k
  | .roundP1 k | .roundP2 k | .c k _ => some k
  | _ => none

/-- The wires of numbered rounds are distinct when those of each round are; other distinct wires may stand around them. -/
theorem nodup_around_rounds {round : Nat → List Wire} {before after : List Wire} (count : Nat)
    (hround : ∀ k, (round k).Nodup) (hnumber : ∀ k, ∀ n ∈ round k, n.roundNumber = some k)
    (hrest : (before ++ after).Nodup) (hnone : ∀ n ∈ before ++ after, n.roundNumber = none) :
    (before ++ (List.range count).flatMap (fun k => round (k + 1)) ++ after).Nodup := by
  have hrounds : ((List.range count).flatMap fun k => round (k + 1)).Nodup := by
    refine List.nodup_flatMap.2 ⟨fun k _ => hround (k + 1), List.nodup_range.imp fun hne n hn hn' => hne ?_⟩
    exact Nat.succ_injective (Option.some_injective _ ((hnumber _ n hn).symm.trans (hnumber _ n hn')))
  have hdisjoint : ((List.range count).flatMap fun k => round (k + 1)).Disjoint (before ++ after) := by
    intro n hn hn'
    obtain ⟨k, -, hk⟩ := List.mem_flatMap.1 hn
    exact Option.some_ne_none _ ((hnumber _ n hk).symm.trans (hnone n hn'))
  have hperm : (before ++ (List.range count).flatMap (fun k => round (k + 1)) ++ after).Perm
      ((List.range count).flatMap (fun k => round (k + 1)) ++ (before ++ after)) := by
    rw [← List.append_assoc]
    exact List.perm_append_comm.append_right after
  exact hperm.nodup_iff.2 (hrounds.append hrest hdisjoint)

/-- Distinct wires of a gate are distinct at a site (R64, R66, R68). -/
theorem nodup_map_gate (site : Site) {gs : List GateWire} (h : gs.Nodup) : (gs.map (Wire.gate site)).Nodup :=
  h.map fun _ _ heq => (Wire.gate.inj heq).2

theorem secAndNames_nodup (site : Site) : (secAndNames site).Nodup := nodup_map_gate site (by decide)
theorem secXorNames_nodup (site : Site) : (secXorNames site).Nodup := nodup_map_gate site (by decide)
theorem secShlNames_nodup (site : Site) : (secShlNames site).Nodup := nodup_map_gate site (by decide)

/-- The wires of a full round are distinct: those of round 0 are, and they differ from them in the number only (R75). -/
theorem roundNames_nodup (k : Nat) : (roundNames k).Nodup :=
  List.Nodup.of_map (Wire.inRound 0) (show (roundNames 0).Nodup by decide)

/-- Every wire of a full round has its number (R75). -/
theorem roundNumber_of_mem_roundNames (k : Nat) : ∀ n ∈ roundNames k, n.roundNumber = some k :=
  List.map_eq_replicate_iff.1 rfl

/-- The wires of A2B.G are distinct (R55). -/
theorem a2bGNames_nodup (w : Nat) : (a2bGNames w).Nodup := by
  refine nodup_around_rounds (round := fun k => (List.range 5).map (Wire.c k)) (w - 1) (fun k => ?_) (fun k => ?_) ?_ ?_
  · exact List.nodup_range.map fun _ _ heq => (Wire.c.inj heq).2
  · exact List.map_eq_replicate_iff.1 rfl
  · decide
  · decide

/-- The wires of the Kogge-Stone network are distinct, and differ from those of the operation around it when these have no round
number (R76, R87). -/
theorem networkNames_nodup_around {before after : List Wire} (n : Nat) (hrest : (before ++ (finalNames ++ after)).Nodup)
    (hnone : ∀ m ∈ before ++ (finalNames ++ after), m.roundNumber = none) :
    (before ++ networkNames n ++ after).Nodup := by
  rw [networkNames, ← List.append_assoc, List.append_assoc]
  exact nodup_around_rounds (n - 1) roundNames_nodup roundNumber_of_mem_roundNames hrest hnone

/-- The wires of A2B.KS are distinct (R87). -/
theorem a2bKsNames_nodup (n : Nat) : (a2bKsNames n).Nodup :=
  networkNames_nodup_around n (by decide) (by decide)

/-- The wires of ADD.KS are distinct (R87). -/
theorem addKsNames_nodup (n : Nat) : (addKsNames n).Nodup := by
  rw [addKsNames, List.append_assoc _ (secXorNames .z)]
  exact networkNames_nodup_around n (by decide) (by decide)

section

variable {w : Nat} (a b c d e f : BitVec w) (j k : Nat) (site : Site)

/-- The wires of each netlist in order are those of its table (R55, R58, R64, R66, R68, R75 to R77, R80, R83). -/
theorem b2aG_wires : (b2aG a b c).lines.map Line.wire = b2aGNames := rfl
theorem secAnd_wires : (secAnd site a b c d e).lines.map Line.wire = secAndNames site := rfl
theorem secXor_wires : (secXor site a b c d).lines.map Line.wire = secXorNames site := rfl
theorem secShl_wires : (secShl site a b c j).lines.map Line.wire = secShlNames site := rfl
theorem prefixRound_wires : (prefixRound k j a b c d e).lines.map Line.wire = roundNames k := rfl
theorem prefixFinal_wires : (prefixFinal j a b c d e).lines.map Line.wire = finalNames := rfl

theorem goubinRounds_wires : (goubinRounds a b c d k).lines.map Line.wire =
    (List.range k).flatMap fun k => (List.range 5).map (Wire.c (k + 1)) := by
  induction k with
  | zero => rfl
  | succ k ih =>
    rw [goubinRounds_succ_lines, List.map_append, ih, List.range_succ (n := k), List.flatMap_append,
      List.flatMap_singleton]
    rfl

theorem prefixRounds_wires : (prefixRounds a b c d e k).lines.map Line.wire =
    (List.range k).flatMap fun k => roundNames (k + 1) := by
  induction k with
  | zero => rfl
  | succ k ih =>
    rw [prefixRounds_succ, List.map_append, ih, prefixRound_wires, List.range_succ, List.flatMap_append,
      List.flatMap_singleton]

theorem a2bG_wires : (a2bG a b c).lines.map Line.wire = a2bGNames w := by
  simp only [a2bG, a2bGWith, List.map_append, goubinRounds_wires]
  rfl

theorem prefixNet_wires : (prefixNet a b c d e).lines.map Line.wire = networkNames (prefixLevels w) := by
  simp only [prefixNet, List.map_append, prefixRounds_wires, prefixFinal_wires, networkNames]

theorem a2bKs_wires : (a2bKs a b c d e).lines.map Line.wire = a2bKsNames (prefixLevels w) := by
  simp only [a2bKs, List.map_append, prefixNet_wires]
  rfl

theorem addKs_wires : (addKs a b c d e f).lines.map Line.wire = addKsNames (prefixLevels w) := by
  simp only [addKs, List.map_append, prefixNet_wires]
  rfl

/-- No two lines of a netlist have one name when its table of wires has none twice (R87, R90). -/
theorem names_nodup_of_wires {net : Net w} {wires : List Wire} (h : net.lines.map Line.wire = wires)
    (hw : wires.Nodup) : net.names.Nodup := by
  rw [Net.names_nodup_iff, h]
  exact hw

theorem a2bG_names_nodup : (a2bG a b c).names.Nodup := names_nodup_of_wires (a2bG_wires ..) (a2bGNames_nodup _)
theorem b2aG_names_nodup : (b2aG a b c).names.Nodup := names_nodup_of_wires (b2aG_wires ..) (by decide)
theorem secAnd_names_nodup : (secAnd site a b c d e).names.Nodup :=
  names_nodup_of_wires (secAnd_wires ..) (secAndNames_nodup _)
theorem secXor_names_nodup : (secXor site a b c d).names.Nodup :=
  names_nodup_of_wires (secXor_wires ..) (secXorNames_nodup _)
theorem secShl_names_nodup : (secShl site a b c j).names.Nodup :=
  names_nodup_of_wires (secShl_wires ..) (secShlNames_nodup _)
theorem a2bKs_names_nodup : (a2bKs a b c d e).names.Nodup :=
  names_nodup_of_wires (a2bKs_wires ..) (a2bKsNames_nodup _)
theorem addKs_names_nodup : (addKs a b c d e f).names.Nodup :=
  names_nodup_of_wires (addKs_wires ..) (addKsNames_nodup _)

end

/-- The netlist that a command selects has distinct names; the reserved code's is empty (R45, R87, R90). -/
theorem netOf_names_nodup (i : Instr) (s : State) : (netOf i s).names.Nodup := by
  cases i with
  | a2bG w j => exact a2bG_names_nodup ..
  | b2aG w j => exact b2aG_names_nodup ..
  | secAnd w j => exact secAnd_names_nodup ..
  | secXor w j => exact secXor_names_nodup _ _ (s.operand .in2 w.bits) _ _
  | secShl w j => exact secShl_names_nodup ..
  | a2bKs w j => exact a2bKs_names_nodup ..
  | addKs w j => exact addKs_names_nodup ..
  | reserved w j => exact List.nodup_nil

/-- The probe set that a state shows has the names of its netlist (R90). -/
theorem probes_map_name {w : Nat} (net : Net w) : (net.probes.map fun p => p.wire.name) = net.names :=
  List.map_map

/-- Settles O45: distinct wires are spelt differently, and a step shows the wires of its netlist or none. -/
theorem probeNamesAreDistinct : Obligations.ProbeNamesAreDistinct := by
  refine ⟨fun w a b c d e f j site => ?_, fun s t h => ?_⟩
  · exact ⟨a2bG_names_nodup .., b2aG_names_nodup .., secAnd_names_nodup .., secXor_names_nodup ..,
      secShl_names_nodup .., a2bKs_names_nodup .., addKs_names_nodup ..⟩
  · obtain ⟨-, rfl⟩ | ⟨-, rfl⟩ := step_cases h
    · rw [State.settle_wires, probes_map_name]
      exact netOf_names_nodup _ s
    · exact List.nodup_nil

end Sys2Proof.Machine

/-! ## First-order security wire by wire -/

namespace Sys2Proof.Safety

variable {D R M S T α β : Type} [DecidableEq α] [DecidableEq β]

/-- The draws list every value exactly once: a uniform draw (R12, R93). -/
def Exhaustive (draws : List D) : Prop := draws.Nodup ∧ ∀ d, d ∈ draws

theorem exhaustive_words (w : Nat) : Exhaustive (words w) := ⟨words_nodup w, mem_words⟩
theorem exhaustive_draws2 (w : Nat) : Exhaustive (draws2 w) := ⟨draws2_nodup w, mem_draws2⟩
theorem exhaustive_draws3 (w : Nat) : Exhaustive (draws3 w) := ⟨draws3_nodup w, mem_draws3⟩
theorem exhaustive_draws4 (w : Nat) : Exhaustive (draws4 w) := ⟨draws4_nodup w, mem_draws4⟩

/-- A uniform draw of a pair is a uniform draw of its two parts, in any arrangement. -/
theorem Exhaustive.map_product_perm {draws : List D} {rs : List R} {ms : List M} (hD : Exhaustive draws)
    (hR : Exhaustive rs) (hM : Exhaustive ms) (ε : R × M ≃ D) : ((rs.product ms).map ε).Perm draws := by
  refine (List.perm_ext_iff_of_nodup ((hR.1.product hM.1).map ε.injective) hD.1).2 fun d => ?_
  exact ⟨fun _ => hD.2 d, fun _ =>
    List.mem_map.2 ⟨ε.symm d, List.mem_product.2 ⟨hR.2 _, hM.2 _⟩, ε.apply_symm_apply d⟩⟩

/-- A value occurs as often as it does over all values of one part of the draw, each held fixed in turn. -/
theorem occurrences_eq_sum {draws : List D} {rs : List R} {ms : List M} (hD : Exhaustive draws)
    (hR : Exhaustive rs) (hM : Exhaustive ms) (ε : R × M ≃ D) (f : D → α) (v : α) :
    occurrences draws f v = (rs.map fun r => occurrences ms (fun m => f (ε (r, m))) v).sum := by
  rw [occurrences, ← (hD.map_product_perm hR hM ε).countP_eq, List.countP_map, List.product, List.countP_flatMap]
  simp only [Function.comp_def, List.countP_map, occurrences]

/-- A probe set is secure when it is for each value of a part of the draw. -/
theorem FirstOrderSecure.slice {draws : List D} {rs : List R} {ms : List M} (hD : Exhaustive draws)
    (hR : Exhaustive rs) (hM : Exhaustive ms) (ε : R × M ≃ D) {probe : S → D → List α}
    (h : ∀ r, FirstOrderSecure ms fun σ m => probe σ (ε (r, m))) : FirstOrderSecure draws probe := by
  intro σ σ' k v
  rw [occurrences_eq_sum hD hR hM ε, occurrences_eq_sum hD hR hM ε]
  exact congrArg List.sum (List.map_congr_left fun r _ => h r σ σ' k v)

/-- One more wire is secure when it is a function, the same for every secret, of a rearrangement of the draws that may depend on
the secret: what such a wire shows is drawn uniformly whatever the secret is (R94). -/
theorem FirstOrderSecure.cons {draws : List D} (hD : Exhaustive draws) (view : S → D ≃ D) (F : D → α) {f : S → D → α}
    {rest : S → D → List α} (h : ∀ σ d, f σ d = F (view σ d)) (hrest : FirstOrderSecure draws rest) :
    FirstOrderSecure draws fun σ d => f σ d :: rest σ d := by
  refine FirstOrderSecure.append (p := fun σ d => [f σ d]) (fun _ _ => rfl) (.single hD.1 hD.2 fun σ σ' => ?_) hrest
  exact ⟨(view σ).trans (view σ').symm, fun d => by simp [h]⟩

/-- One more wire that no secret reaches. -/
theorem FirstOrderSecure.cons_public {draws : List D} {f : D → α} {rest : S → D → List α}
    (hrest : FirstOrderSecure draws rest) : FirstOrderSecure draws fun σ d => f d :: rest σ d :=
  FirstOrderSecure.append (p := fun _ d => [f d]) (fun _ _ => rfl) (fun _ _ _ => .refl _ _) hrest

/-- A secure probe set is secure when the secrets are themselves formed from others. -/
theorem FirstOrderSecure.comp_secret {draws : List D} {probe : S → D → List α} (h : FirstOrderSecure draws probe)
    (φ : T → S) : FirstOrderSecure draws fun τ d => probe (φ τ) d :=
  fun τ τ' k => h (φ τ) (φ τ') k

/-- The draws may be listed in another form. -/
theorem FirstOrderSecure.of_map_draws {draws : List D} (φ : D → M) {probe : S → M → List α}
    (h : FirstOrderSecure draws fun σ d => probe σ (φ d)) : FirstOrderSecure (draws.map φ) probe := by
  intro σ σ' k v
  rw [occurrences, occurrences, List.countP_map, List.countP_map]
  exact h σ σ' k v

/-- Two observations have one distribution when their values over the draws are a rearrangement of each other. -/
theorem sameDistribution_iff_perm {draws : List D} {f g : D → α} :
    SameDistribution draws f g ↔ (draws.map f).Perm (draws.map g) := by
  rw [List.perm_iff_count]
  refine forall_congr' fun v => ?_
  rw [List.count_eq_countP, List.count_eq_countP, List.countP_map, List.countP_map]
  simp [occurrences, Function.comp_def, beq_eq_decide]

/-- What is computed from each wire alone shows no more than the wire. -/
theorem FirstOrderSecure.map {draws : List D} {probe : S → D → List α} (h : FirstOrderSecure draws probe) (F : α → β) :
    FirstOrderSecure draws fun σ d => (probe σ d).map F := by
  intro σ σ' k
  have hperm := (sameDistribution_iff_perm.1 (h σ σ' k)).map (Option.map F)
  simp only [List.map_map, Function.comp_def, ← List.getElem?_map] at hperm
  exact sameDistribution_iff_perm.2 hperm

/-! ### Rearrangements of the draws -/

/-- A word under a mask: every mask gives another result (R9). -/
def xorWith {w : Nat} (x : BitVec w) : BitVec w ≃ BitVec w :=
  Function.Involutive.toPerm (x ^^^ ·) fun m => by simp

/-- The Boolean share of a word in the place of its mask, the first word drawn (R9). -/
def maskFirst {w : Nat} (A : Type) (x : BitVec w) : BitVec w × A ≃ BitVec w × A := (xorWith x).prodCongr (.refl A)

/-- The arithmetic share of a word in the place of its mask, the first word drawn (R9). -/
def subFirst {w : Nat} (A : Type) (x : BitVec w) : BitVec w × A ≃ BitVec w × A := (Equiv.subLeft x).prodCongr (.refl A)

/-- The first part of the draw as it is, and the rest rearranged in a way that may depend on it. -/
def keepFirst {A B : Type} (e : A → B ≃ B) : A × B ≃ A × B := (Equiv.refl A).prodShear e

/-- One more wire that a random word enters by XOR, and in no other way, is uniform for every secret. -/
theorem FirstOrderSecure.cons_masked {w : Nat} {draws : List D} (hD : Exhaustive draws) (ε : R × BitVec w ≃ D)
    {f : S → D → BitVec w} {rest : S → D → List (BitVec w)} (h : ∀ σ r m, f σ (ε (r, m)) = f σ (ε (r, 0#w)) ^^^ m)
    (hrest : FirstOrderSecure draws rest) : FirstOrderSecure draws fun σ d => f σ d :: rest σ d := by
  refine .cons hD (fun σ => ε.symm.trans ((keepFirst fun r => xorWith (f σ (ε (r, 0#w)))).trans ε))
    (fun d => (ε.symm d).2) (fun σ d => ?_) hrest
  obtain ⟨⟨r, m⟩, rfl⟩ := ε.surjective d
  simp only [Equiv.trans_apply, Equiv.symm_apply_apply]
  exact h σ r m

/-- The third of three parts drawn first. -/
def thirdFirst (A B C : Type) : C × A × B ≃ A × B × C := (Equiv.prodComm C (A × B)).trans (Equiv.prodAssoc A B C)

/-- The second of three parts drawn first. -/
def secondFirst (A B C : Type) : B × A × C ≃ A × B × C where
  toFun x := (x.2.1, x.1, x.2.2)
  invFun x := (x.2.1, x.1, x.2.2)

end Sys2Proof.Safety

/-! ## The masked gates are first-order secure (R94) -/

namespace Sys2Proof.Machine

open Sys2Proof.Safety

section

variable {w : Nat} {S : Type} (site : Site) (x y p g : S → BitVec w) (j k : Nat)

/-- The wires of SECAND in order, the mask `u` of four of them written last (R64). -/
theorem secAnd_values (x1 y1 s t u : BitVec w) : (secAnd site x1 y1 s t u).values =
    [x1 &&& y1, (x1 &&& y1) ^^^ u, x1 &&& t, (x1 &&& y1) ^^^ (x1 &&& t) ^^^ u, y1 &&& s,
      (x1 &&& y1) ^^^ (x1 &&& t) ^^^ (y1 &&& s) ^^^ u, s &&& t,
      (x1 &&& y1) ^^^ (x1 &&& t) ^^^ (y1 &&& s) ^^^ (s &&& t) ^^^ u] := by
  have hlast (a b : BitVec w) : a ^^^ u ^^^ b = a ^^^ b ^^^ u := by ac_rfl
  simp only [Net.values, secAnd, List.map_cons, List.map_nil, xorLine_val, andLine_val, hlast]

/-- The wires of SECXOR in order; the port of the operand `s` has no part in them (R66). -/
theorem secXor_values (x1 y1 s u : BitVec w) : (secXor site x1 y1 s u).values = [x1 ^^^ y1, x1 ^^^ y1 ^^^ u] := rfl

theorem secAnd_values_length (x1 y1 s t u : BitVec w) : (secAnd site x1 y1 s t u).values.length = 8 := rfl
theorem secXor_values_length (x1 y1 s u : BitVec w) : (secXor site x1 y1 s u).values.length = 2 := rfl
theorem secShl_values_length (x1 s t : BitVec w) : (secShl site x1 s t j).values.length = 4 := rfl

/-- SECAND on two masked words, whatever the words: each product is of two words whose pair is uniform, and each sum is
under `u` (R94). -/
theorem secAnd_firstOrderSecure :
    FirstOrderSecure (draws3 w) fun σ d =>
      (secAnd site (x σ ^^^ d.1) (y σ ^^^ d.2.1) d.1 d.2.1 d.2.2).values := by
  have hD := exhaustive_draws3 w
  simp only [secAnd_values]
  refine .cons hD (fun σ => (xorWith (x σ)).prodCongr (maskFirst _ (y σ))) (fun d => d.1 &&& d.2.1) (fun _ _ => rfl) ?_
  refine .cons_masked hD (Equiv.prodAssoc _ _ _) (fun _ _ _ => by simp) ?_
  refine .cons hD (fun σ => maskFirst _ (x σ)) (fun d => d.1 &&& d.2.1) (fun _ _ => rfl) ?_
  refine .cons_masked hD (Equiv.prodAssoc _ _ _) (fun _ _ _ => by simp) ?_
  refine .cons hD (fun σ => keepFirst fun _ => maskFirst _ (y σ)) (fun d => d.2.1 &&& d.1) (fun _ _ => rfl) ?_
  refine .cons_masked hD (Equiv.prodAssoc _ _ _) (fun _ _ _ => by simp) ?_
  refine .cons_public ?_
  exact .cons_masked hD (Equiv.prodAssoc _ _ _) (fun _ _ _ => by simp) (.nil _)

/-- SECXOR on two masked words, whatever the words: both wires are under `s` (R94). -/
theorem secXor_firstOrderSecure :
    FirstOrderSecure (draws2 w) fun σ d => (secXor site (x σ ^^^ d.1) (y σ ^^^ d.2) d.1 d.2).values := by
  have hD := exhaustive_draws2 w
  refine .cons_masked hD (.refl _) (fun σ s u => ?q0) (.cons_masked hD (Equiv.prodComm _ _) (fun σ u s => ?z1) (.nil _))
  case q0 => simp [BitVec.xor_assoc]
  case z1 =>
    change x σ ^^^ s ^^^ (y σ ^^^ u) ^^^ u = x σ ^^^ 0#w ^^^ (y σ ^^^ u) ^^^ u ^^^ s
    rw [BitVec.xor_zero]
    ac_rfl

/-- SECSHL on a masked word, whatever the word and the distance: a shifted masked word, a shifted mask, and two sums under `t`
(R94). -/
theorem secShl_firstOrderSecure :
    FirstOrderSecure (draws2 w) fun σ d => (secShl site (x σ ^^^ d.1) d.1 d.2 j).values := by
  have hD := exhaustive_draws2 w
  refine .cons hD (fun σ => maskFirst _ (x σ)) (fun d => d.1 <<< j) (fun _ _ => rfl) ?_
  refine .cons hD (fun σ => maskFirst _ (x σ)) (fun d => d.1 <<< j ^^^ d.2) (fun _ _ => rfl) ?_
  refine .cons_public ?_
  refine .cons_masked hD (.refl _) (fun σ s t => ?z1) (.nil _)
  case z1 =>
    change (secShl site (x σ ^^^ s) s t j).r0 = (secShl site (x σ ^^^ s) s 0#w j).r0 ^^^ t
    simp only [secShl_r0, BitVec.xor_zero]

end

/-- Settles O48: the gate on the two secrets. -/
theorem secAndIsFirstOrderSecure : Obligations.SecAndIsFirstOrderSecure :=
  fun _ _ => secAnd_firstOrderSecure .top Prod.fst Prod.snd

/-- Settles O49: the gate on the two secrets. -/
theorem secXorIsFirstOrderSecure : Obligations.SecXorIsFirstOrderSecure :=
  fun _ _ => secXor_firstOrderSecure .top Prod.fst Prod.snd

/-- Settles O50: the gate on the secret, at any distance. -/
theorem secShlIsFirstOrderSecure : Obligations.SecShlIsFirstOrderSecure :=
  fun _ _ j => secShl_firstOrderSecure .top id j

/-! ## The Kogge-Stone network is first-order secure, though its stages share their masks -/

section

variable {w : Nat} {S : Type} (site : Site) (x y p g : S → BitVec w) (j k : Nat)

/-- SECSHL in a stage, which has a third word for its other gates. -/
theorem secShl_firstOrderSecure_draws3 :
    FirstOrderSecure (draws3 w) fun σ d => (secShl site (x σ ^^^ d.1) d.1 d.2.1 j).values :=
  .slice (exhaustive_draws3 w) (exhaustive_words w) (exhaustive_draws2 w) (thirdFirst _ _ _)
    fun _ => secShl_firstOrderSecure site x j

theorem secXor_values_comm (x1 y1 s u : BitVec w) : (secXor site x1 y1 s u).values = (secXor site y1 x1 s u).values := by
  rw [secXor_values, secXor_values, BitVec.xor_comm]

/-- SECXOR in a stage, where the word under `u` is the first operand. -/
theorem secXor_firstOrderSecure_draws3 :
    FirstOrderSecure (draws3 w) fun σ d => (secXor site (x σ ^^^ d.2.2) (y σ ^^^ d.1) d.1 d.2.2).values := by
  simp only [secXor_values_comm site (x _ ^^^ _)]
  exact .slice (exhaustive_draws3 w) (exhaustive_words w) (exhaustive_draws2 w) (secondFirst _ _ _)
    fun _ => secXor_firstOrderSecure site y x

/-- Every wire of the final step on words under `s`: the shifted word comes under `t`, and the product under `u` (R74, R77). -/
theorem prefixFinal_firstOrderSecure :
    FirstOrderSecure (draws3 w) fun σ d =>
      (prefixFinal j (p σ ^^^ d.1) (g σ ^^^ d.1) d.1 d.2.1 d.2.2).lines.map Line.val := by
  simp only [prefixFinal, List.map_append, List.append_assoc, secShl_r0, secAnd_r0, xor_mask_cancel]
  exact .append (fun _ _ => secShl_values_length ..) (secShl_firstOrderSecure_draws3 _ g j)
    (.append (fun _ _ => secAnd_values_length ..) (secAnd_firstOrderSecure _ p fun σ => g σ <<< j)
      (secXor_firstOrderSecure_draws3 _ (fun σ => p σ &&& g σ <<< j) g))

/-- The wires of a full round: the G half is the final step's, and the P half ends by exchanging the product's mask `u` for `s`
(R75, R77). -/
theorem prefixRound_values (p g s t u : BitVec w) : (prefixRound k j (p ^^^ s) g s t u).lines.map Line.val =
    (prefixFinal j (p ^^^ s) g s t u).lines.map Line.val ++
      ((secShl (.round k .hp) (p ^^^ s) s t j).values ++
        ((secAnd (.round k .pa) (p ^^^ s) (p <<< j ^^^ t) s t u).values ++
          [(p &&& p <<< j) ^^^ u ^^^ s, (p &&& p <<< j) ^^^ s])) := by
  have hp : (secShl (.round k .hp) (p ^^^ s) s t j).r0 = p <<< j ^^^ t := by rw [secShl_r0, xor_mask_cancel]
  have hpa : (secAnd (.round k .pa) (p ^^^ s) (p <<< j ^^^ t) s t u).r0 = (p &&& p <<< j) ^^^ u := by
    rw [secAnd_r0, xor_mask_cancel, xor_mask_cancel]
  rw [← xor_mask_cancel_around (p &&& p <<< j) s u, ← hpa, ← hp]
  rfl

/-- Every wire of a full round on words under `s` (R75). -/
theorem prefixRound_firstOrderSecure :
    FirstOrderSecure (draws3 w) fun σ d =>
      (prefixRound k j (p σ ^^^ d.1) (g σ ^^^ d.1) d.1 d.2.1 d.2.2).lines.map Line.val := by
  have hD := exhaustive_draws3 w
  simp only [prefixRound_values]
  refine .append (n := 14) (fun _ _ => rfl) (prefixFinal_firstOrderSecure p g j)
    (.append (fun _ _ => secShl_values_length ..) (secShl_firstOrderSecure_draws3 _ p j)
      (.append (fun _ _ => secAnd_values_length ..) (secAnd_firstOrderSecure _ p fun σ => p σ <<< j) ?_))
  refine .cons_masked hD (Equiv.prodComm _ _) (fun _ _ _ => by simp) ?_
  exact .cons_masked hD (Equiv.prodComm _ _) (fun _ _ _ => by simp) (.nil _)

/-- Every wire of every round: each round ends, and the next begins, with two words under `s` (R74, R76). -/
theorem prefixRounds_firstOrderSecure :
    FirstOrderSecure (draws3 w) fun σ d =>
      (prefixRounds (p σ ^^^ d.1) (g σ ^^^ d.1) d.1 d.2.1 d.2.2 k).lines.map Line.val := by
  induction k with
  | zero => exact .nil _
  | succ k ih =>
    simp only [prefixRounds_succ, prefixRounds_masked, List.map_append]
    exact ih.append (n := 28 * k) (fun _ _ => by simp) (prefixRound_firstOrderSecure _ _ _ _)

theorem prefixNet_values_length (p g s t u : BitVec w) :
    ((prefixNet p g s t u).lines.map Line.val).length = 28 * (prefixLevels w - 1) + 14 := by
  simp [prefixNet]

/-- Every wire of the network on words under `s` (R76). -/
theorem prefixNet_firstOrderSecure :
    FirstOrderSecure (draws3 w) fun σ d =>
      (prefixNet (p σ ^^^ d.1) (g σ ^^^ d.1) d.1 d.2.1 d.2.2).lines.map Line.val := by
  simp only [prefixNet, prefixRounds_masked, List.map_append]
  exact .append (n := 28 * (prefixLevels w - 1)) (fun _ _ => by simp) (prefixRounds_firstOrderSecure p g _)
    (prefixFinal_firstOrderSecure _ _ _)

end

end Sys2Proof.Machine

/-! ## B2A.G is first-order secure (R94) -/

namespace Sys2Proof.Machine

open Sys2Proof.Safety

/-- The wires of B2A.G in order, the last in closed form (R58, R59). -/
theorem b2aG_values {w : Nat} (x1 r g : BitVec w) : (b2aG x1 r g).values =
    [x1 ^^^ g, (x1 ^^^ g) - g, ((x1 ^^^ g) - g) ^^^ x1, g ^^^ r, x1 ^^^ (r ^^^ g), (x1 ^^^ (r ^^^ g)) - (r ^^^ g),
      (x1 ^^^ r) - r] := by
  rw [← b2aG_r0 x1 r g, BitVec.xor_comm r g]
  rfl

/-- Settles O51: the first three wires are made of `x1` and `g`, the next three of `x1` and `g ^ r`, and the last is the secret
minus the mask. -/
theorem b2aGIsFirstOrderSecure : Obligations.B2aGIsFirstOrderSecure := by
  intro w _
  have hD := exhaustive_draws2 w
  unfold probesB2aG
  simp only [b2aG_values, xor_mask_cancel]
  refine .cons hD (fun x => maskFirst _ x) (fun d => d.1 ^^^ d.2) (fun _ _ => rfl) ?_
  refine .cons hD (fun x => maskFirst _ x) (fun d => (d.1 ^^^ d.2) - d.2) (fun _ _ => rfl) ?_
  refine .cons hD (fun x => maskFirst _ x) (fun d => ((d.1 ^^^ d.2) - d.2) ^^^ d.1) (fun _ _ => rfl) ?_
  refine .cons_public ?_
  refine .cons hD (fun x => (xorWith x).prodShear xorWith) (fun d => d.1 ^^^ d.2) (fun _ _ => rfl) ?_
  refine .cons hD (fun x => (xorWith x).prodShear xorWith) (fun d => (d.1 ^^^ d.2) - d.2) (fun _ _ => rfl) ?_
  exact .cons hD (fun x => subFirst _ x) (fun d => d.1) (fun _ _ => rfl) (.nil _)

/-! ## A2B.G is first-order secure (R94) -/

section

variable {w : Nat} (m k : BitVec w)

/-- A word XORed with a part of its double: what A2B.G makes of the random word `g` before the first round (R55). -/
def xorDouble (x : BitVec w) : BitVec w := x ^^^ (x <<< 1 &&& m) ^^^ k

theorem xorDouble_injective : Function.Injective (xorDouble m k) := by
  intro x y h
  apply BitVec.eq_of_getLsbD_eq
  intro i hi
  have hbit (i : Nat) := congrArg (·.getLsbD i) h
  simp only [xorDouble, BitVec.getLsbD_xor, BitVec.getLsbD_and, BitVec.getLsbD_shiftLeft] at hbit
  induction i with
  | zero => simpa using hbit 0
  | succ i ih => simpa [ih (by omega)] using hbit (i + 1)

/-- Every word is exactly one word XORed with a part of its double: the bits of that word follow from the lowest up. -/
noncomputable def doubling : BitVec w ≃ BitVec w :=
  .ofBijective _ (Finite.injective_iff_bijective.1 (xorDouble_injective m k))

theorem doubling_apply (x : BitVec w) : doubling m k x = x ^^^ (x <<< 1 &&& m) ^^^ k := rfl

end

section

variable {w : Nat} (a r g c v : BitVec w) (k n : Nat)

/-- The wire `i8` in the form of `goubinBlind_eq` (R56 step 1). -/
def goubinBlind : BitVec w := g ^^^ (g <<< 1 &&& (a ^^^ r)) ^^^ (a &&& r)

/-- The word of the recursion that `T` holds under `2g` comes out of a shift, so `T` is twice a word under `g` (R55, R56). -/
theorem exists_goubinRounds_t_eq_shiftLeft :
    ∃ c : BitVec w, ∀ g, (goubinRounds a r (goubinBlind a r g) (g <<< 1) n).t = (c ^^^ g) <<< 1 := by
  have hplain : ∃ c : BitVec w, (goubinRounds a r (a &&& r) 0#w n).t = c <<< 1 := by
    cases n with
    | zero => exact ⟨0#w, by simp⟩
    | succ n => exact ⟨_, goubinRounds_succ_t ..⟩
  obtain ⟨c, hc⟩ := hplain
  refine ⟨c, fun g => ?_⟩
  rw [goubinBlind, goubinRounds_t_blinded, hc, BitVec.shiftLeft_xor_distrib, BitVec.xor_comm]

/-- What a round makes of the word under `2g`, before it is shifted (R56 step 2). -/
def goubinStep : BitVec w := (v &&& r) ^^^ (a &&& r) ^^^ (v &&& a)

/-- The wires of a round in order, on `T` twice a word under `g` (R55, R56). -/
theorem goubinRound_values :
    (goubinRound k a r (goubinBlind a r g) ((c ^^^ g) <<< 1)).lines.map Line.val =
      [(c ^^^ g) <<< 1 &&& r, g ^^^ (g <<< 1 &&& a) ^^^ ((c <<< 1 &&& r) ^^^ (a &&& r)), (c ^^^ g) <<< 1 &&& a,
        goubinStep a r (c <<< 1) ^^^ g, (goubinStep a r (c <<< 1) ^^^ g) <<< 1] := by
  have hc1 : ((c ^^^ g) <<< 1 &&& r) ^^^ goubinBlind a r g =
      g ^^^ (g <<< 1 &&& a) ^^^ ((c <<< 1 &&& r) ^^^ (a &&& r)) := by
    apply BitVec.eq_of_getLsbD_eq
    intro i _
    simp only [goubinBlind, BitVec.shiftLeft_xor_distrib, BitVec.getLsbD_xor, BitVec.getLsbD_and]
    cases a.getLsbD i <;> cases r.getLsbD i <;> cases g.getLsbD i <;> cases (g <<< 1).getLsbD i <;>
      cases (c <<< 1).getLsbD i <;> rfl
  have hc3 : ((c ^^^ g) <<< 1 &&& r) ^^^ goubinBlind a r g ^^^ ((c ^^^ g) <<< 1 &&& a) =
      goubinStep a r (c <<< 1) ^^^ g := by
    rw [BitVec.shiftLeft_xor_distrib, BitVec.xor_comm (c <<< 1), goubinBlind, goubinRound_blinded, BitVec.xor_comm g,
      goubinStep]
  rw [← hc3, ← hc1]
  rfl

/-- The wires of A2B.G in order, the closed forms where it has them (R55, R56). -/
theorem a2bG_values : (a2bG a r g).values =
    [g <<< 1, g ^^^ r, g &&& (g ^^^ r), g <<< 1 ^^^ a, g ^^^ (g <<< 1 ^^^ a), (g ^^^ (g <<< 1 ^^^ a)) &&& r,
        g ^^^ (g <<< 1 &&& r) ^^^ (a &&& r), g <<< 1 &&& a, goubinBlind a r g] ++
      ((goubinRounds a r (goubinBlind a r g) (g <<< 1) (goubinRoundCount w)).lines.map Line.val ++ [(a + r) ^^^ r]) := by
  have hi6 : (g &&& (g ^^^ r)) ^^^ ((g ^^^ (g <<< 1 ^^^ a)) &&& r) = g ^^^ (g <<< 1 &&& r) ^^^ (a &&& r) := by
    apply BitVec.eq_of_getLsbD_eq
    intro i _
    simp only [BitVec.getLsbD_xor, BitVec.getLsbD_and]
    cases r.getLsbD i <;> simp
  rw [← a2bG_r0 a r g, goubinBlind, ← hi6, ← goubinBlind_eq]
  simp only [Net.values, a2bG, a2bGWith, List.map_append, List.append_assoc]
  rfl

end

section

variable {w : Nat}

/-- Every wire of a round: for a fixed `r` the random word hides what `T` holds, and for the product with `a` it does so for each
value of the share (R94). -/
theorem goubinRound_firstOrderSecure (k : Nat) (c : BitVec w → BitVec w → BitVec w) :
    FirstOrderSecure (draws2 w) fun x d =>
      (goubinRound k (x - d.1) d.1 (goubinBlind (x - d.1) d.1 d.2)
        ((c (x - d.1) d.1 ^^^ d.2) <<< 1)).lines.map Line.val := by
  have hD := exhaustive_draws2 w
  simp only [goubinRound_values]
  refine .cons hD (fun x => keepFirst fun r => xorWith (c (x - r) r)) (fun d => d.2 <<< 1 &&& d.1) (fun _ _ => rfl) ?_
  refine .cons hD (fun x => keepFirst fun r => doubling (x - r) ((c (x - r) r <<< 1 &&& r) ^^^ ((x - r) &&& r)))
    (fun d => d.2) (fun _ _ => rfl) ?_
  refine .cons hD (fun x => (Equiv.subLeft x).prodShear fun r => xorWith (c (x - r) r)) (fun d => d.2 <<< 1 &&& d.1)
    (fun _ _ => rfl) ?_
  refine .cons hD (fun x => keepFirst fun r => xorWith (goubinStep (x - r) r (c (x - r) r <<< 1))) (fun d => d.2)
    (fun _ _ => rfl) ?_
  exact .cons hD (fun x => keepFirst fun r => xorWith (goubinStep (x - r) r (c (x - r) r <<< 1))) (fun d => d.2 <<< 1)
    (fun _ _ => rfl) (.nil _)

/-- Every wire of every round, whatever their number (R94). -/
theorem goubinRounds_firstOrderSecure (n : Nat) :
    FirstOrderSecure (draws2 w) fun x d =>
      (goubinRounds (x - d.1) d.1 (goubinBlind (x - d.1) d.1 d.2) (d.2 <<< 1) n).lines.map Line.val := by
  induction n with
  | zero => exact .nil _
  | succ n ih =>
    choose c hc using fun a r : BitVec w => exists_goubinRounds_t_eq_shiftLeft a r n
    simp only [goubinRounds_succ_lines, hc, List.map_append]
    exact ih.append (n := 5 * n) (fun _ _ => by simp) (goubinRound_firstOrderSecure _ c)

end

/-- Settles O52: the wires before the rounds depend on `g` and on the share alone, or have `g` in every bit; the result is the
secret under its mask. -/
theorem a2bGIsFirstOrderSecure : Obligations.A2bGIsFirstOrderSecure := by
  intro w _
  have hD := exhaustive_draws2 w
  unfold probesA2bG
  simp only [a2bG_values, BitVec.sub_add_cancel]
  refine .append (n := 9) (fun _ _ => rfl) ?first (.append (n := 5 * goubinRoundCount w) (fun _ _ => by simp) ?rounds ?x1)
  case rounds => exact goubinRounds_firstOrderSecure _
  case x1 => exact .cons hD (fun x => maskFirst _ x) (fun d => d.1) (fun _ _ => rfl) (.nil _)
  case first =>
    refine .cons_public (.cons_public (.cons_public ?_))
    refine .cons hD (fun x => subFirst _ x) (fun d => d.2 <<< 1 ^^^ d.1) (fun _ _ => rfl) ?_
    refine .cons hD (fun x => subFirst _ x) (fun d => d.2 ^^^ (d.2 <<< 1 ^^^ d.1)) (fun _ _ => rfl) ?_
    refine .cons hD (fun x => keepFirst fun r => doubling (.allOnes w) (x - r)) (fun d => d.2 &&& d.1) (fun x d => ?i5) ?_
    case i5 =>
      change _ = doubling (.allOnes w) (x - d.1) d.2 &&& d.1
      rw [doubling_apply, BitVec.and_allOnes, BitVec.xor_assoc]
    refine .cons hD (fun x => keepFirst fun r => doubling r ((x - r) &&& r)) (fun d => d.2) (fun _ _ => rfl) ?_
    refine .cons hD (fun x => subFirst _ x) (fun d => d.2 <<< 1 &&& d.1) (fun _ _ => rfl) ?_
    exact .cons hD (fun x => keepFirst fun r => doubling ((x - r) ^^^ r) ((x - r) &&& r)) (fun d => d.2) (fun _ _ => rfl)
      (.nil _)

end Sys2Proof.Machine

/-! ## A2B.KS and ADD.KS are first-order secure, though their stages share the masks `s`, `t`, `u` (R86, R94) -/

namespace Sys2Proof.Machine

open Sys2Proof.Safety

section

variable {w : Nat} (a r s t u x y : BitVec w)

/-- The wires of A2B.KS in order, the network's operands and the last lines in closed form (R80). -/
theorem a2bKs_values : (a2bKs a r s t u).values =
    [a ^^^ s, (a ^^^ r) ^^^ s, a ^^^ t, (a ^^^ t) &&& r, s ^^^ ((a ^^^ t) &&& r), t &&& r, (a &&& r) ^^^ s] ++
      ((prefixNet ((a ^^^ r) ^^^ s) ((a &&& r) ^^^ s) s t u).lines.map Line.val ++
        [(networkCarries a r ^^^ s) <<< 1, (a + r) ^^^ r ^^^ s <<< 1, s <<< 1, (a + r) ^^^ r]) := by
  have hp : a ^^^ s ^^^ r = (a ^^^ r) ^^^ s := by ac_rfl
  have he1 : (networkCarries a r ^^^ s) <<< 1 ^^^ a = (a + r) ^^^ r ^^^ s <<< 1 := by
    rw [add_xor_right, BitVec.shiftLeft_xor_distrib]
    ac_rfl
  rw [← he1, ← a2bKs_r0 a r s t u, ← prefixNet_g a r s t u, ← a2bKs_generate a r s t, ← hp]
  simp only [Net.values, a2bKs, List.map_append, List.append_assoc]
  rfl

/-- The wires of ADD.KS on two secrets under their masks, the network's operands and the last lines in closed form (R83). -/
theorem addKs_values : (addKs (x ^^^ s) s (y ^^^ r) r t u).values =
    (secXor .p0 (x ^^^ s) (y ^^^ r) s r).values ++ ((secAnd .ga (x ^^^ s) (y ^^^ r) s r u).values ++
      ([(x &&& y) ^^^ s ^^^ u, (x &&& y) ^^^ s] ++
        ((prefixNet ((x ^^^ y) ^^^ s) ((x &&& y) ^^^ s) s t u).lines.map Line.val ++
          ((secXor .z (y ^^^ r) (x ^^^ s) r s).values ++
            [(networkCarries x y ^^^ s) <<< 1, (networkCarries x y ^^^ s) <<< 1 ^^^ (x ^^^ y) ^^^ r, s <<< 1,
              (x + y) ^^^ r])))) := by
  have hp : x ^^^ s ^^^ (y ^^^ r) ^^^ r = (x ^^^ y) ^^^ s := by
    rw [← BitVec.xor_assoc, xor_mask_cancel]
    ac_rfl
  have hg4 : (x &&& y) ^^^ u ^^^ s = (x &&& y) ^^^ s ^^^ u := by ac_rfl
  have he1 : y ^^^ r ^^^ (x ^^^ s) ^^^ s ^^^ (networkCarries x y ^^^ s) <<< 1 =
      (networkCarries x y ^^^ s) <<< 1 ^^^ (x ^^^ y) ^^^ r := by
    rw [← BitVec.xor_assoc (y ^^^ r), xor_mask_cancel]
    ac_rfl
  have hz1 := addKs_r0 r (x ^^^ s) (y ^^^ r) s t u
  simp only [xor_mask_cancel] at hz1
  rw [← hz1]
  simp only [Net.values, addKs, List.map_append, List.append_assoc, List.map_cons, List.map_nil, xorLine_val, shlLine_val,
    secXor_r0, secAnd_r0, xor_mask_cancel, hp, hg4, prefixNet_g, he1]

end

/-- Settles O53: for each `r` the words `s`, `t`, `u` hide every wire up to `e0`; the last ones are the secret under `r` and words
that no secret reaches. -/
theorem a2bKsIsFirstOrderSecure : Obligations.A2bKsIsFirstOrderSecure := by
  intro w _
  have hD := exhaustive_draws4 w
  unfold probesA2bKs
  simp only [a2bKs_values, BitVec.sub_add_cancel]
  refine .append (n := 7) (fun _ _ => rfl) ?first (.append (fun _ _ => prefixNet_values_length ..) ?network ?last)
  case network =>
    exact .slice hD (exhaustive_words w) (exhaustive_draws3 w) (.refl _) fun r =>
      prefixNet_firstOrderSecure (fun x => (x - r) ^^^ r) fun x => (x - r) &&& r
  case first =>
    refine .cons hD (fun x => keepFirst fun r => maskFirst _ (x - r)) (fun d => d.2.1) (fun _ _ => rfl) ?_
    refine .cons hD (fun x => keepFirst fun r => maskFirst _ ((x - r) ^^^ r)) (fun d => d.2.1) (fun _ _ => rfl) ?_
    refine .cons hD (fun x => keepFirst fun r => keepFirst fun _ => maskFirst _ (x - r)) (fun d => d.2.2.1)
      (fun _ _ => rfl) ?_
    refine .cons hD (fun x => keepFirst fun r => keepFirst fun _ => maskFirst _ (x - r)) (fun d => d.2.2.1 &&& d.1)
      (fun _ _ => rfl) ?_
    refine .cons hD (fun x => keepFirst fun r => keepFirst fun _ => maskFirst _ (x - r))
      (fun d => d.2.1 ^^^ (d.2.2.1 &&& d.1)) (fun _ _ => rfl) ?_
    refine .cons_public ?_
    exact .cons hD (fun x => keepFirst fun r => maskFirst _ ((x - r) &&& r)) (fun d => d.2.1) (fun _ _ => rfl) (.nil _)
  case last =>
    refine .cons hD (fun x => keepFirst fun r => maskFirst _ (networkCarries (x - r) r)) (fun d => d.2.1 <<< 1)
      (fun _ _ => rfl) ?_
    refine .cons hD (fun x => maskFirst _ x) (fun d => d.1 ^^^ d.2.1 <<< 1) (fun _ _ => rfl) ?_
    refine .cons_public ?_
    exact .cons hD (fun x => maskFirst _ x) (fun d => d.1) (fun _ _ => rfl) (.nil _)

/-- Settles O54: each part reads three of the four words as masks of the secrets, or of the network's words made of them. -/
theorem addKsIsFirstOrderSecure : Obligations.AddKsIsFirstOrderSecure := by
  intro w _
  have hD := exhaustive_draws4 w
  unfold probesAddKs
  simp only [addKs_values]
  refine .append (fun _ _ => secXor_values_length ..) ?p0 (.append (fun _ _ => secAnd_values_length ..) ?ga
    (.append (n := 2) (fun _ _ => rfl) ?init (.append (fun _ _ => prefixNet_values_length ..) ?network
      (.append (fun _ _ => secXor_values_length ..) ?z ?last))))
  case p0 =>
    exact .slice hD (exhaustive_draws2 w) (exhaustive_draws2 w) (thirdFirst _ _ _) fun _ =>
      secXor_firstOrderSecure .p0 Prod.fst Prod.snd
  case ga =>
    exact .slice hD (exhaustive_words w) (exhaustive_draws3 w)
      ((secondFirst _ _ _).trans (.prodCongr (.refl _) (secondFirst _ _ _))) fun _ =>
      secAnd_firstOrderSecure .ga Prod.fst Prod.snd
  case init =>
    refine .cons hD (fun xy : BitVec w × BitVec w => keepFirst fun s => keepFirst fun _ => keepFirst fun _ =>
      xorWith ((xy.1 &&& xy.2) ^^^ s)) (fun d => d.2.2.2) (fun _ _ => rfl) ?_
    exact .cons hD (fun xy : BitVec w × BitVec w => maskFirst _ (xy.1 &&& xy.2)) (fun d => d.1) (fun _ _ => rfl) (.nil _)
  case network =>
    exact .slice hD (exhaustive_words w) (exhaustive_draws3 w) (secondFirst _ _ _) fun _ =>
      prefixNet_firstOrderSecure (fun xy : BitVec w × BitVec w => xy.1 ^^^ xy.2) (fun xy => xy.1 &&& xy.2)
  case z =>
    exact .slice hD (exhaustive_draws2 w) (exhaustive_draws2 w) ((thirdFirst _ _ _).trans (secondFirst _ _ _)) fun _ =>
      secXor_firstOrderSecure .z Prod.snd Prod.fst
  case last =>
    refine .cons hD (fun xy : BitVec w × BitVec w => maskFirst _ (networkCarries xy.1 xy.2)) (fun d => d.1 <<< 1)
      (fun _ _ => rfl) ?_
    refine .cons hD (fun xy : BitVec w × BitVec w => keepFirst fun s : BitVec w =>
      maskFirst _ ((networkCarries xy.1 xy.2 ^^^ s) <<< 1 ^^^ (xy.1 ^^^ xy.2))) (fun d => d.2.1) (fun _ _ => rfl) ?_
    refine .cons_public ?_
    exact .cons hD (fun xy : BitVec w × BitVec w => keepFirst fun _ => maskFirst _ (xy.1 + xy.2)) (fun d => d.2.1)
      (fun _ _ => rfl) (.nil _)

end Sys2Proof.Machine

/-! ## A step in the experiment of R93 -/

namespace Sys2Proof.Machine

open Sys2Proof.Safety

section

variable {w : Nat} (s : State) (i : Instr)

/-- Putting words on the ports leaves the parameter and the command as they are. -/
theorem drawPorts_cfg_cmd (l : List (InPort × BitVec w)) :
    (drawPorts s l).cfg = s.cfg ∧ (drawPorts s l).cmd = s.cmd := by
  induction l generalizing s with
  | nil => exact ⟨rfl, rfl⟩
  | cons x l ih =>
    obtain ⟨hcfg, hcmd⟩ := ih (s.setPort x.1 (driveWord x.2))
    exact ⟨hcfg.trans (s.setPort_cfg ..), hcmd.trans (s.setPort_cmd ..)⟩

theorem sharePorts_cfg_cmd (x y : BitVec w) (l : List ShareRole) :
    (sharePorts x y s l).cfg = s.cfg ∧ (sharePorts x y s l).cmd = s.cmd := by
  induction l generalizing s with
  | nil => exact ⟨rfl, rfl⟩
  | cons r l ih =>
    obtain ⟨hcfg, hcmd⟩ := ih (s.setPort r.port _)
    exact ⟨hcfg.trans (s.setPort_cfg ..), hcmd.trans (s.setPort_cmd ..)⟩

variable {s i}

/-- In the experiment a step of a legal command shows the wires of the command's netlist, zero-extended (R90, R93). -/
theorem observed_experiment (h : i.legal s.cfg = true) (xy : BitVec i.width.bits × BitVec i.width.bits)
    (d : List (BitVec i.width.bits)) :
    observed (experiment s i xy d) = (netOf i (experiment s i xy d)).values.map driveWord := by
  obtain ⟨hcfg, hcmd⟩ := sharePorts_cfg_cmd
    (drawPorts { s with cmd := encode i } ((randomWords i).zip d)) xy.1 xy.2 (shares i)
  obtain ⟨hcfg', hcmd'⟩ := drawPorts_cfg_cmd { s with cmd := encode i } ((randomWords i).zip d)
  have hdecode : decode (experiment s i xy d).cmd = i := by rw [experiment, hcmd, hcmd', decode_encode]
  have hstep : step (experiment s i xy d) = _ := step_legal (by rw [hdecode, experiment, hcfg, hcfg', h])
  rw [observed, hstep]
  simp only [State.settle_wires, Net.probes, Net.values, List.map_map]
  rw [hdecode]
  rfl

/-- A word of a width, driven and cut to the width again, is the word (R21, R22). -/
theorem setWidth_driveWord {w : WidthTag} (a : BitVec w.bits) : (driveWord a).setWidth w.bits = a :=
  operand_of_port_eq_driveWord (s := State.reset.setPort .in0 (driveWord a)) (k := .in0) rfl

/-- The reserved code is legal on no configuration (R45, R117). -/
theorem legal_reserved (c : Config) (w : WidthTag) (j : Distance) : (Instr.reserved w j).legal c = false := by
  rw [Instr.legal, Instr.selectsOperation, Bool.and_false]

/-- The widths of the block are widths of R8. -/
theorem two_le_bits (w : WidthTag) : 2 ≤ w.bits := by cases w <;> decide

end

section

variable (w : WidthTag) (j : Distance) (s : State) (xy : BitVec w.bits × BitVec w.bits) (m0 m1 m2 m3 : BitVec w.bits)

/-- In the experiment a command's netlist stands on the shares of the secrets and on the drawn words (R43, R92, R93). -/
theorem netOf_experiment_a2bG : netOf (.a2bG w j) (experiment s (.a2bG w j) xy [m0, m1]) = a2bG (xy.1 - m0) m0 m1 := by
  change a2bG ((driveWord (xy.1 - (driveWord m0).setWidth w.bits)).setWidth w.bits) ((driveWord m0).setWidth w.bits)
    ((driveWord m1).setWidth w.bits) = _
  simp only [setWidth_driveWord]

theorem netOf_experiment_b2aG : netOf (.b2aG w j) (experiment s (.b2aG w j) xy [m0, m1]) = b2aG (xy.1 ^^^ m0) m0 m1 := by
  change b2aG ((driveWord (xy.1 ^^^ (driveWord m0).setWidth w.bits)).setWidth w.bits) ((driveWord m0).setWidth w.bits)
    ((driveWord m1).setWidth w.bits) = _
  simp only [setWidth_driveWord]

theorem netOf_experiment_secAnd : netOf (.secAnd w j) (experiment s (.secAnd w j) xy [m0, m1, m2]) =
    secAnd .top (xy.1 ^^^ m0) (xy.2 ^^^ m1) m0 m1 m2 := by
  change secAnd .top ((driveWord (xy.1 ^^^ (driveWord m0).setWidth w.bits)).setWidth w.bits)
    ((driveWord (xy.2 ^^^ (driveWord m1).setWidth w.bits)).setWidth w.bits) ((driveWord m0).setWidth w.bits)
    ((driveWord m1).setWidth w.bits) ((driveWord m2).setWidth w.bits) = _
  simp only [setWidth_driveWord]

theorem netOf_experiment_secXor : netOf (.secXor w j) (experiment s (.secXor w j) xy [m0, m1]) =
    secXor .top (xy.1 ^^^ m0) (xy.2 ^^^ m1) m0 m1 := by
  change secXor .top ((driveWord (xy.1 ^^^ (driveWord m0).setWidth w.bits)).setWidth w.bits)
    ((driveWord (xy.2 ^^^ (driveWord m1).setWidth w.bits)).setWidth w.bits) ((driveWord m0).setWidth w.bits)
    ((driveWord m1).setWidth w.bits) = _
  simp only [setWidth_driveWord]

theorem netOf_experiment_secShl : netOf (.secShl w j) (experiment s (.secShl w j) xy [m0, m1]) =
    secShl .top (xy.1 ^^^ m0) m0 m1 j.toNat := by
  change secShl .top ((driveWord (xy.1 ^^^ (driveWord m0).setWidth w.bits)).setWidth w.bits)
    ((driveWord m0).setWidth w.bits) ((driveWord m1).setWidth w.bits) j.toNat = _
  simp only [setWidth_driveWord]

theorem netOf_experiment_a2bKs : netOf (.a2bKs w j) (experiment s (.a2bKs w j) xy [m0, m1, m2, m3]) =
    a2bKs (xy.1 - m0) m0 m1 m2 m3 := by
  change a2bKs ((driveWord (xy.1 - (driveWord m0).setWidth w.bits)).setWidth w.bits) ((driveWord m0).setWidth w.bits)
    ((driveWord m1).setWidth w.bits) ((driveWord m2).setWidth w.bits) ((driveWord m3).setWidth w.bits) = _
  simp only [setWidth_driveWord]

theorem netOf_experiment_addKs : netOf (.addKs w j) (experiment s (.addKs w j) xy [m0, m1, m2, m3]) =
    addKs (xy.1 ^^^ m0) m0 (xy.2 ^^^ m1) m1 m2 m3 := by
  change addKs ((driveWord (xy.1 ^^^ (driveWord m0).setWidth w.bits)).setWidth w.bits) ((driveWord m0).setWidth w.bits)
    ((driveWord (xy.2 ^^^ (driveWord m1).setWidth w.bits)).setWidth w.bits) ((driveWord m1).setWidth w.bits)
    ((driveWord m2).setWidth w.bits) ((driveWord m3).setWidth w.bits) = _
  simp only [setWidth_driveWord]

end

/-- A legal command is secure in one step when the probe set of its operation is, on the secrets the command reads. -/
theorem commandIsSecure_of_probes {s : State} {i : Instr} (h : i.legal s.cfg = true) {T D : Type} {draws : List D}
    {toList : D → List (BitVec i.width.bits)} (hdraws : drawLists i.width.bits (randomWords i).length = draws.map toList)
    (secret : BitVec i.width.bits × BitVec i.width.bits → T) {probe : T → D → List (BitVec i.width.bits)}
    (hprobe : FirstOrderSecure draws probe)
    (hnet : ∀ xy d, (netOf i (experiment s i xy (toList d))).values = probe (secret xy) d) : CommandIsSecure s i := by
  rw [CommandIsSecure, hdraws]
  refine .of_map_draws _ ?_
  simp only [observed_experiment h, hnet]
  exact (hprobe.comp_secret secret).map driveWord

/-- Settles O55: each operation's probe set is secure, and a step shows it and nothing else. -/
theorem everyOperationIsFirstOrderSecure : Obligations.EveryOperationIsFirstOrderSecure := by
  intro s i h
  have hw := two_le_bits i.width
  cases i with
  | a2bG w j =>
    exact commandIsSecure_of_probes h (drawLists_two _) Prod.fst (a2bGIsFirstOrderSecure _ hw)
      fun xy _ => congrArg Net.values (netOf_experiment_a2bG w j s xy ..)
  | b2aG w j =>
    exact commandIsSecure_of_probes h (drawLists_two _) Prod.fst (b2aGIsFirstOrderSecure _ hw)
      fun xy _ => congrArg Net.values (netOf_experiment_b2aG w j s xy ..)
  | secAnd w j =>
    exact commandIsSecure_of_probes h (drawLists_three _) id (secAndIsFirstOrderSecure _ hw)
      fun xy _ => congrArg Net.values (netOf_experiment_secAnd w j s xy ..)
  | secXor w j =>
    exact commandIsSecure_of_probes h (drawLists_two _) id (secXorIsFirstOrderSecure _ hw)
      fun xy _ => congrArg Net.values (netOf_experiment_secXor w j s xy ..)
  | secShl w j =>
    exact commandIsSecure_of_probes h (drawLists_two _) Prod.fst (secShlIsFirstOrderSecure _ hw _)
      fun xy _ => congrArg Net.values (netOf_experiment_secShl w j s xy ..)
  | a2bKs w j =>
    exact commandIsSecure_of_probes h (drawLists_four _) Prod.fst (a2bKsIsFirstOrderSecure _ hw)
      fun xy _ => congrArg Net.values (netOf_experiment_a2bKs w j s xy ..)
  | addKs w j =>
    exact commandIsSecure_of_probes h (drawLists_four _) id (addKsIsFirstOrderSecure _ hw)
      fun xy _ => congrArg Net.values (netOf_experiment_addKs w j s xy ..)
  | reserved w j =>
    rw [legal_reserved] at h
    cases h

/-! ## What every result recombines to -/

/-- A legal command completes, and `out[0]` carries its netlist's result at the command's width (R22, R100). -/
theorem recombines_of_r0 {s : State} {i : Instr} (h : i.legal s.cfg = true) {k : InPort} {arithmetic : Bool}
    (hmask : resultMask i = some (k, arithmetic))
    (hr0 : secretResult (secretsOn s i i.width.bits) i =
      secretOf arithmetic (netOf i s).r0 (s.operand k i.width.bits)) :
    ∃ t k arithmetic, resultMask i = some (k, arithmetic) ∧ exec i s = .next t ∧ t.err = 0 ∧
      secretOf arithmetic (t.out0.setWidth i.width.bits) (s.operand k i.width.bits) =
        secretResult (secretsOn s i i.width.bits) i := by
  refine ⟨_, k, arithmetic, hmask, exec_legal h, State.settle_err .., ?_⟩
  rw [State.settle_out0, setWidth_driveWord, hr0]

/-- Settles O43: the contract of each operation, on the secrets that its ports carry. -/
theorem everyResultRecombines : Obligations.EveryResultRecombines := by
  intro i s h
  have hw := two_le_bits i.width
  cases i with
  | a2bG w j => exact recombines_of_r0 h rfl (a2bGMeetsItsContract _ hw _ _ _ _ rfl)
  | b2aG w j => exact recombines_of_r0 h rfl (b2aGMeetsItsContract _ hw _ _ _ _ rfl)
  | secAnd w j => exact recombines_of_r0 h rfl (secAnd_booleanShare .top rfl rfl)
  | secXor w j => exact recombines_of_r0 h rfl (secXor_booleanShare .top rfl rfl)
  | secShl w j => exact recombines_of_r0 h rfl (secShl_booleanShare .top j.toNat rfl)
  | a2bKs w j => exact recombines_of_r0 h rfl (a2bKsMeetsItsContract _ hw _ _ _ _ _ _ rfl)
  | addKs w j => exact recombines_of_r0 h rfl (addKsMeetsItsContract _ hw _ _ _ _ _ _ _ _ rfl rfl).1
  | reserved w j =>
    rw [legal_reserved] at h
    cases h

/-! ## The tables of the probe sets and their lengths -/

/-- The number of wires of A2B.G (R90). -/
theorem a2bGNames_length {w : Nat} (hw : 1 ≤ w) : (a2bGNames w).length = 5 * w + 5 := by
  simp [a2bGNames]
  omega

/-- The number of wires of the Kogge-Stone network: 28 in a full round, 14 in the final step (R87). -/
theorem networkNames_length (n : Nat) : (networkNames n).length = 28 * (n - 1) + 14 := by
  have hround (k : Nat) : (roundNames k).length = 28 := rfl
  have hfinal : finalNames.length = 14 := rfl
  simp [networkNames, hround, hfinal]
  omega

theorem a2bKsNames_length {n : Nat} (hn : 1 ≤ n) : (a2bKsNames n).length = 28 * n - 3 := by
  simp [a2bKsNames, networkNames_length]
  omega

theorem addKsNames_length {n : Nat} (hn : 1 ≤ n) : (addKsNames n).length = 28 * n + 4 := by
  simp [addKsNames, networkNames_length, secXorNames, secAndNames]
  omega

/-- Settles O44: the tables and their lengths; at a width of 2 or more the network has a level. -/
theorem probeSetNames : Obligations.ProbeSetNames := by
  intro w hw a b c d e f j site
  have hn : 1 ≤ prefixLevels w := Nat.clog_pos Nat.one_lt_two hw
  exact ⟨a2bG_wires .., a2bGNames_length (Nat.le_of_succ_le hw), b2aG_wires .., rfl, secAnd_wires .., rfl,
    secXor_wires .., rfl, secShl_wires .., rfl, a2bKs_wires .., a2bKsNames_length hn, addKs_wires .., addKsNames_length hn⟩

/-! ## Netlists do not depend on the data -/

section

variable {w : Nat} (a b c d e f a' b' c' d' e' f' : BitVec w) (k : Nat)

/-- The wires and operators of the rounds of A2B.G, on any two inputs. -/
theorem goubinRounds_shape : (goubinRounds a b c d k).lines.map (fun l => (l.wire, l.op)) =
    (goubinRounds a' b' c' d' k).lines.map fun l => (l.wire, l.op) := by
  induction k with
  | zero => rfl
  | succ k ih =>
    simp only [goubinRounds_succ_lines, List.map_append, ih]
    rfl

/-- The wires and operators of the full rounds of the Kogge-Stone network, on any two inputs. -/
theorem prefixRounds_shape : (prefixRounds a b c d e k).lines.map (fun l => (l.wire, l.op)) =
    (prefixRounds a' b' c' d' e' k).lines.map fun l => (l.wire, l.op) := by
  induction k with
  | zero => rfl
  | succ k ih =>
    simp only [prefixRounds_succ, List.map_append, ih]
    rfl

theorem prefixNet_shape : (prefixNet a b c d e).lines.map (fun l => (l.wire, l.op)) =
    (prefixNet a' b' c' d' e').lines.map fun l => (l.wire, l.op) := by
  simp only [prefixNet, List.map_append, prefixRounds_shape a b c d e a' b' c' d' e']
  rfl

theorem a2bG_shape : (a2bG a b c).shape = (a2bG a' b' c').shape := by
  simp only [Net.shape, a2bG, a2bGWith, List.map_append]
  rw [goubinRounds_shape]
  rfl

theorem a2bKs_shape : (a2bKs a b c d e).shape = (a2bKs a' b' c' d' e').shape := by
  simp only [Net.shape, a2bKs, List.map_append, List.map_cons, List.map_nil, xorLine_wire, xorLine_op, andLine_wire,
    andLine_op, shlLine_wire, shlLine_op]
  rw [prefixNet_shape]

theorem addKs_shape : (addKs a b c d e f).shape = (addKs a' b' c' d' e' f').shape := by
  simp only [Net.shape, addKs, List.map_append, List.map_cons, List.map_nil, xorLine_wire, xorLine_op, shlLine_wire,
    shlLine_op]
  rw [prefixNet_shape]
  rfl

end

/-- Settles O47: the gates and B2A.G are fixed lists of lines, and the other netlists have their rounds by induction. -/
theorem netlistsAreDataIndependent : Obligations.NetlistsAreDataIndependent := by
  intro i s s'
  cases i with
  | a2bG w j => exact a2bG_shape ..
  | a2bKs w j => exact a2bKs_shape ..
  | addKs w j => exact addKs_shape ..
  | b2aG w j | secAnd w j | secXor w j | secShl w j | reserved w j => rfl

end Sys2Proof.Machine

/-! ## The error output -/

namespace Sys2Proof.Machine

variable {s s' t : State} {e : BitVec 2}

/-- Bit 0 of the code is the cause of R102. -/
theorem getLsbD_zero_errCode : ∀ errOp errWidth : Bool, (errCode errOp errWidth).getLsbD 0 = errWidth := by decide

/-- Bit 1 of the code is the cause of R103. -/
theorem getLsbD_one_errCode : ∀ errOp errWidth : Bool, (errCode errOp errWidth).getLsbD 1 = errOp := by decide

/-- A code with a bit set is not 0. -/
theorem err_ne_zero_of_getLsbD {k : Nat} (h : e.getLsbD k = true) : e ≠ 0 := by
  rintro rfl
  exact Bool.false_ne_true (BitVec.getLsbD_zero.symm.trans h)

/-- A step leaves its command's code on `err`: for a legal command that code is 0, and any other raises it (R104). -/
theorem err_of_step (h : step s = .next t) : t.err = errOf s.cfg (decode s.cmd) := by
  obtain ⟨hl, rfl⟩ | ⟨-, rfl⟩ := step_cases h
  · exact ((errOf_eq_zero_iff _ _).2 hl).symm
  · rfl

/-- What a step leaves on `err`, on the fields of `cmd` and the parameter alone (R51, R105). -/
theorem err_eq_errCode_of_step (h : step s = .next t) :
    t.err = errCode (opField s.cmd == 7) (wtagField s.cmd == 3 && s.cfg.hasW64 == false) := by
  rw [err_of_step h, errOf_decode]

/-- States with the same inputs have the same step (R33). -/
theorem step_eq_of_sameInputs (h : Safety.SameInputs s s') : step s = step s' := by
  obtain ⟨t, ht⟩ := step_completes s
  obtain ⟨t', ht'⟩ := step_completes s'
  rw [ht, ht', step_congr h ht ht']

/-- An evaluation after a raised code answers as if the code had not been raised (R104, R106). -/
theorem step_drive_raiseErr (s : State) (c : BitVec 2) (x : Stimulus) :
    step ((s.raiseErr c).drive x) = step (s.drive x) := step_eq_of_sameInputs ⟨rfl, rfl⟩

/-- Settles O19: bit 0 of the code a step leaves is the width's cause, and an error is silent. -/
theorem widthErrorExactly : Obligations.WidthErrorExactly := by
  intro s
  obtain ⟨t, ht⟩ := step_completes s
  refine ⟨t, ht, ?_, fun hbit => Safety.errorIsSilent_of_step ht (err_ne_zero_of_getLsbD hbit)⟩
  rw [err_eq_errCode_of_step ht, getLsbD_zero_errCode, Bool.and_eq_true, beq_iff_eq, beq_iff_eq]

/-- Settles O20: bit 1 of the code a step leaves is the operation's cause, and an error is silent. -/
theorem operationErrorExactly : Obligations.OperationErrorExactly := by
  intro s
  obtain ⟨t, ht⟩ := step_completes s
  refine ⟨t, ht, ?_, fun hbit => Safety.errorIsSilent_of_step ht (err_ne_zero_of_getLsbD hbit)⟩
  rw [err_eq_errCode_of_step ht, getLsbD_one_errCode, beq_iff_eq]

/-- Settles O21: a legal command settles its netlist with `err` 0, and any other only raises its code, which the next step does
not see. -/
theorem raisingAnErrorHasNoOtherEffect : Obligations.RaisingAnErrorHasNoOtherEffect := by
  intro i s
  refine ⟨fun hl => ⟨_, exec_legal hl, rfl⟩, fun hl => ?_⟩
  have hne : errOf s.cfg i ≠ 0 := by
    rw [Ne, errOf_eq_zero_iff, hl]
    exact Bool.false_ne_true
  refine ⟨exec_illegal hl, hne, getLsbD_one_errCode _ _, getLsbD_zero_errCode _ _, fun t x ht => ?_⟩
  rw [exec_illegal hl] at ht
  cases ht
  exact step_drive_raiseErr s _ x

/-- Settles O22: each row gives both causes, and with them the code. -/
theorem errorCodeTable : Obligations.ErrorCodeTable := by
  intro s t h
  rw [err_eq_errCode_of_step h]
  refine ⟨fun hw ho => ?_, fun hw ho => ?_, fun hc hw ho => ?_, fun hc hw ho => ?_, fun hc hw ho => ?_, fun hc hw ho => ?_⟩
  · rw [beq_eq_false_iff_ne.2 hw, Bool.false_and, beq_eq_false_iff_ne.2 ho]
    rfl
  · rw [beq_eq_false_iff_ne.2 hw, Bool.false_and, ho]
    rfl
  · rw [hc, hw, beq_eq_false_iff_ne.2 ho]
    rfl
  · rw [hc, hw, ho]
    rfl
  · rw [hc, hw, beq_eq_false_iff_ne.2 ho]
    rfl
  · rw [hc, hw, ho]
    rfl

end Sys2Proof.Machine

/-! ## The operator counts (R86, R128) -/

namespace Sys2Proof.Machine

open Sys2Proof.Safety

/-- A row of the table of R128, as the number of lines with each operator. -/
def opRow (shl and xor sub : Nat) : GateOp → Nat
  | .shl => shl
  | .and => and
  | .xor => xor
  | .sub => sub

/-- Rows add up column by column. -/
theorem opRow_add (op : GateOp) (i j k l i' j' k' l' : Nat) :
    opRow i j k l op + opRow i' j' k' l' op = opRow (i + i') (j + j') (k + k') (l + l') op := by
  cases op <;> rfl

/-- The four counts of a netlist that has a row. -/
theorem Net.count_of_row {w : Nat} {net : Net w} {i j k l : Nat} (h : ∀ op, net.count op = opRow i j k l op) :
    net.count .shl = i ∧ net.count .and = j ∧ net.count .xor = k ∧ net.count .sub = l :=
  ⟨h .shl, h .and, h .xor, h .sub⟩

section

variable {w : Nat} (a b c d e f : BitVec w) (j k : Nat) (site : Site) (op : GateOp)

/-- The rows of the operations that are a fixed list of lines (R58, R64, R66, R68). -/
theorem b2aG_count : (b2aG a b c).count op = opRow 0 0 5 2 op := by cases op <;> rfl
theorem secAnd_count : (secAnd site a b c d e).count op = opRow 0 4 4 0 op := by cases op <;> rfl
theorem secXor_count : (secXor site a b c d).count op = opRow 0 0 2 0 op := by cases op <;> rfl
theorem secShl_count : (secShl site a b c j).count op = opRow 2 0 2 0 op := by cases op <;> rfl

/-- A round of A2B.G, a full round and the final step of the Kogge-Stone network (R55, R75, R77). -/
theorem goubinRound_count : (goubinRound k a b c d).lines.countP (fun l => l.op == op) = opRow 1 2 2 0 op := by
  cases op <;> rfl
theorem prefixRound_count : (prefixRound k j a b c d e).lines.countP (fun l => l.op == op) = opRow 4 8 16 0 op := by
  cases op <;> rfl
theorem prefixFinal_count : (prefixFinal j a b c d e).lines.countP (fun l => l.op == op) = opRow 2 4 8 0 op := by
  cases op <;> rfl

theorem goubinRounds_count :
    (goubinRounds a b c d k).lines.countP (fun l => l.op == op) = opRow k (2 * k) (2 * k) 0 op := by
  induction k with
  | zero => cases op <;> rfl
  | succ k ih => rw [goubinRounds_succ_lines, List.countP_append, ih, goubinRound_count, opRow_add]; rfl

theorem prefixRounds_count :
    (prefixRounds a b c d e k).lines.countP (fun l => l.op == op) = opRow (4 * k) (8 * k) (16 * k) 0 op := by
  induction k with
  | zero => cases op <;> rfl
  | succ k ih => rw [prefixRounds_succ, List.countP_append, ih, prefixRound_count, opRow_add]; rfl

/-- The network's full rounds and its final step (R76). -/
theorem prefixNet_count : (prefixNet a b c d e).lines.countP (fun l => l.op == op) =
    opRow (4 * (prefixLevels w - 1) + 2) (8 * (prefixLevels w - 1) + 4) (16 * (prefixLevels w - 1) + 8) 0 op := by
  rw [prefixNet, List.countP_append, prefixRounds_count, prefixFinal_count, opRow_add]

/-- A2B.G: `i0` to `i8`, the rounds, and `x1` (R55). -/
theorem a2bG_count (hw : 1 ≤ w) : (a2bG a b c).count op = opRow w (2 * w + 1) (2 * w + 4) 0 op := by
  have hparts : (a2bG a b c).count op =
      opRow 1 3 5 0 op + opRow (w - 1) (2 * (w - 1)) (2 * (w - 1)) 0 op + opRow 0 0 1 0 op := by
    rw [Net.count, a2bG, a2bGWith, List.countP_append, List.countP_append, goubinRounds_count]
    cases op <;> rfl
  rw [hparts, opRow_add, opRow_add]
  congr 1 <;> omega

/-- A2B.KS: the network between the lines `p0` to `G0` and the lines `e0` to `x1` (R80). -/
theorem a2bKs_count (hn : 1 ≤ prefixLevels w) : (a2bKs a b c d e).count op =
    opRow (4 * prefixLevels w) (8 * prefixLevels w - 2) (16 * prefixLevels w - 1) 0 op := by
  have hparts : (a2bKs a b c d e).count op = opRow 0 2 5 0 op +
      opRow (4 * (prefixLevels w - 1) + 2) (8 * (prefixLevels w - 1) + 4) (16 * (prefixLevels w - 1) + 8) 0 op +
        opRow 2 0 2 0 op := by
    rw [Net.count, a2bKs, List.countP_append, List.countP_append, prefixNet_count]
    cases op <;> rfl
  rw [hparts, opRow_add, opRow_add]
  congr 1 <;> omega

/-- ADD.KS: `P0`, `GA`, `g4` and `G0` before the network, `Z` and the lines `e0` to `z1` after it (R83). -/
theorem addKs_count (hn : 1 ≤ prefixLevels w) : (addKs a b c d e f).count op =
    opRow (4 * prefixLevels w) (8 * prefixLevels w) (16 * prefixLevels w + 4) 0 op := by
  have hparts : (addKs a b c d e f).count op =
      opRow 0 0 2 0 op + opRow 0 4 4 0 op + opRow 0 0 2 0 op +
        opRow (4 * (prefixLevels w - 1) + 2) (8 * (prefixLevels w - 1) + 4) (16 * (prefixLevels w - 1) + 8) 0 op +
          opRow 0 0 2 0 op + opRow 2 0 2 0 op := by
    rw [Net.count, addKs]
    simp only [List.countP_append, prefixNet_count]
    cases op <;> rfl
  rw [hparts]
  simp only [opRow_add]
  congr 1 <;> omega

/-! ### The gates inside the Kogge-Stone operations -/

/-- Lines counted by their wires are counted in the table of the wires. -/
theorem countP_wire_of_wires {net : Net w} {wires : List Wire} (h : net.lines.map Line.wire = wires) (q : Wire → Bool) :
    net.lines.countP (fun l => q l.wire) = wires.countP q := by
  rw [← h, List.countP_map]
  rfl

/-- Wires of the network, by what each full round and the final step have of them (R76). -/
theorem networkNames_countP {q : Wire → Bool} {inRound : Nat} (hround : ∀ k, (roundNames k).countP q = inRound) (n : Nat) :
    (networkNames n).countP q = inRound * (n - 1) + finalNames.countP q := by
  simp [networkNames, List.countP_flatMap, hround, Function.comp_def, mul_comm]

/-- The SECSHL and SECAND gates of the network: two in a full round, one in the final step (R75, R77, R86). -/
theorem networkNames_countP_secShl (n : Nat) : (networkNames n).countP startsSecShl = 2 * (n - 1) + 1 :=
  networkNames_countP (fun _ => rfl) n
theorem networkNames_countP_secAnd (n : Nat) : (networkNames n).countP startsSecAnd = 2 * (n - 1) + 1 :=
  networkNames_countP (fun _ => rfl) n

/-- A2B.KS has no gate outside its network. -/
theorem a2bKsNames_countP_secShl (n : Nat) : (a2bKsNames n).countP startsSecShl = 2 * (n - 1) + 1 := by
  rw [a2bKsNames, List.countP_append, List.countP_append, networkNames_countP_secShl]
  exact Nat.zero_add _
theorem a2bKsNames_countP_secAnd (n : Nat) : (a2bKsNames n).countP startsSecAnd = 2 * (n - 1) + 1 := by
  rw [a2bKsNames, List.countP_append, List.countP_append, networkNames_countP_secAnd]
  exact Nat.zero_add _

/-- ADD.KS has the SECAND `GA` outside its network, and no SECSHL. -/
theorem addKsNames_countP_secShl (n : Nat) : (addKsNames n).countP startsSecShl = 2 * (n - 1) + 1 := by
  simp only [addKsNames, List.countP_append, networkNames_countP_secShl]
  exact Nat.zero_add _
theorem addKsNames_countP_secAnd (n : Nat) : (addKsNames n).countP startsSecAnd = 2 * (n - 1) + 1 + 1 := by
  simp only [addKsNames, List.countP_append, networkNames_countP_secAnd]
  exact Nat.add_comm 1 _

end

/-- Settles O46: the rows of R128, the recursive ones summed round by round, and the gates counted in the tables of
wires. -/
theorem operatorCounts : Obligations.OperatorCounts := by
  intro w hw a b c d e f j site n
  have hn : 1 ≤ n := Nat.clog_pos Nat.one_lt_two hw
  refine ⟨Net.count_of_row (a2bG_count _ _ _ · (Nat.le_of_succ_le hw)), Net.count_of_row (b2aG_count _ _ _),
    Net.count_of_row (secAnd_count _ _ _ _ _ _), Net.count_of_row (secXor_count _ _ _ _ _),
    Net.count_of_row (secShl_count _ _ _ _ _), Net.count_of_row (a2bKs_count _ _ _ _ _ · hn),
    Net.count_of_row (addKs_count _ _ _ _ _ _ · hn), ?_, ?_, ?_, ?_⟩
  · rw [countP_wire_of_wires (a2bKs_wires ..), a2bKsNames_countP_secShl]
  · rw [countP_wire_of_wires (a2bKs_wires ..), a2bKsNames_countP_secAnd]
  · rw [countP_wire_of_wires (addKs_wires ..), addKsNames_countP_secShl]
  · rw [countP_wire_of_wires (addKs_wires ..), addKsNames_countP_secAnd]

end Sys2Proof.Machine

/-! ## With aliased or constant masks a wire carries an unmasked value, and leaks (R119 to R124) -/

namespace Sys2Proof.Safety

section

variable {S D α : Type} [DecidableEq α] {draws : List D} {probe : S → D → List α} {wire : Nat} {σ σ' : S}

/-- A wire that holds one value on every draw for one secret, and not on some draw for another, leaks. -/
theorem wireLeaks_of_constant {v : Option α} (hconst : ∀ d ∈ draws, (probe σ d)[wire]? = v) {d : D} (hd : d ∈ draws)
    (hne : (probe σ' d)[wire]? ≠ v) : WireLeaks draws probe wire := by
  refine ⟨σ, σ', not_sameDistribution v fun hocc => hne ?_⟩
  have hall : occurrences draws (fun d => (probe σ d)[wire]?) v = draws.length :=
    List.countP_eq_length.2 fun d hd => decide_eq_true (hconst d hd)
  exact of_decide_eq_true (List.countP_eq_length.1 (hocc.symm.trans hall) d hd)

/-- A wire that holds a value of the secret alone, whatever the draw, leaks as soon as two secrets differ in it. -/
theorem wireLeaks_of_exposed {value : S → α} (hexposed : ∀ σ d, (probe σ d)[wire]? = some (value σ)) {d : D}
    (hd : d ∈ draws) (hne : value σ' ≠ value σ) : WireLeaks draws probe wire :=
  wireLeaks_of_constant (fun d _ => hexposed σ d) hd fun h => hne (Option.some.inj ((hexposed σ' d).symm.trans h))

end

end Sys2Proof.Safety

namespace Sys2Proof.Machine

open Sys2Proof.Safety

section

variable {w : Nat} (a r g x x1 y y1 m s t u : BitVec w) (j : Nat)

/-- Two words under one mask have the XOR of the bare words (R120, R121). -/
theorem xor_same_mask : x ^^^ m ^^^ (y ^^^ m) = x ^^^ y := by
  rw [← BitVec.xor_assoc, xor_mask_cancel_around]

/-- The first sum of SECSHL by 0, when the new mask is the old one (R120). -/
theorem shiftLeft_zero_same_mask : (x ^^^ m) <<< 0 ^^^ m = x := by
  rw [BitVec.shiftLeft_zero, xor_mask_cancel]

/-- The wire `A0` of B2A.G with the random word 0 (R124). -/
theorem xor_mask_cancel_zero : x ^^^ m ^^^ (0#w ^^^ m) = x := by
  rw [BitVec.zero_xor, xor_mask_cancel]

/-- With the random word 0 nothing blinds the generate word of A2B.G (R124). -/
theorem goubinBlind_zero : goubinBlind a r 0#w = a &&& r := by
  rw [goubinBlind, BitVec.zero_shiftLeft, BitVec.zero_and, BitVec.xor_zero, BitVec.zero_xor]

/-- The wires that aliased or constant masks expose (R55, R58, R66, R68, R83). -/
theorem wireValue_secXor_q0 : wireValue (secXor .top x1 y1 s u) (.gate .top .q0) = some (x1 ^^^ y1) := rfl
theorem wireValue_secShl_h1 : wireValue (secShl .top x1 s t j) (.gate .top .h1) = some (x1 <<< j ^^^ t) := rfl
theorem wireValue_b2aG_capT0 : wireValue (b2aG x1 r g) .capT0 = some (x1 ^^^ g) := rfl
theorem wireValue_b2aG_capA0 : wireValue (b2aG x1 r g) .capA0 = some (x1 ^^^ (g ^^^ r)) := rfl
theorem wireValue_addKs_p0_q0 : wireValue (addKs x1 s y1 r t u) (.gate .p0 .q0) = some (x1 ^^^ y1) := rfl
theorem wireValue_a2bG_i8 : wireValue (a2bG a r g) (.i 8) = some (goubinBlind a r g) := by
  rw [goubinBlind, ← goubinBlind_eq]
  rfl

/-- A width that is not 0 has two words to tell apart. -/
theorem allOnes_ne_zero (hw : 1 ≤ w) : BitVec.allOnes w ≠ 0#w := by
  intro h
  have hbit : (BitVec.allOnes w).getLsbD 0 = (0#w).getLsbD 0 := by rw [h]
  simp [Nat.lt_of_succ_le hw] at hbit

end

/-- Settles O56: the value read off each wire is masked twice by one word, or masked and blinded by the word 0. -/
theorem aliasedMasksExposeSecrets : Obligations.AliasedMasksExposeSecrets := by
  intro w x y a m t u
  refine ⟨?_, ?_, ?_, ?_, ?_, ?_⟩
  · rw [wireValue_secXor_q0, xor_same_mask]
  · rw [wireValue_secShl_h1, shiftLeft_zero_same_mask]
  · rw [wireValue_b2aG_capT0, xor_mask_cancel]
  · rw [wireValue_addKs_p0_q0, xor_same_mask]
  · exact (wireValue_b2aG_capA0 ..).trans (congrArg some (xor_mask_cancel_zero x m))
  · exact (wireValue_a2bG_i8 ..).trans (congrArg some (goubinBlind_zero a m))

/-- Settles O57: `q0`, `h1` and `A0` hold the secret or the XOR of the secrets, and `n0` is 0 whatever the mask when the secrets
are complements, but is the mask when both are 0. -/
theorem aliasedMasksLeak : Obligations.AliasedMasksLeak := by
  intro w hw
  have hne : BitVec.allOnes w ≠ 0#w := allOnes_ne_zero (Nat.le_of_succ_le hw)
  refine ⟨?q0, ?n0, ?h1, ?A0⟩
  case q0 =>
    refine wireLeaks_of_exposed (σ := (0#w, 0#w)) (σ' := (.allOnes w, 0#w)) (value := fun xy => xy.1 ^^^ xy.2)
      (fun xy m => congrArg some (xor_same_mask xy.1 xy.2 m)) (mem_words 0#w) ?_
    rwa [BitVec.xor_zero, BitVec.xor_zero]
  case n0 =>
    refine wireLeaks_of_constant (σ := (0#w, .allOnes w)) (σ' := (0#w, 0#w)) (v := some 0#w) (fun d _ => ?_)
      (mem_draws2 (.allOnes w, 0#w)) fun h => hne ?_
    · rw [secAnd_values]
      simp
    · rw [secAnd_values] at h
      simpa using h
  case h1 =>
    exact wireLeaks_of_exposed (value := id) (fun x m => congrArg some (shiftLeft_zero_same_mask x m)) (mem_words 0#w) hne
  case A0 =>
    exact wireLeaks_of_exposed (value := id) (fun x r => congrArg some (xor_mask_cancel_zero x r)) (mem_words 0#w) hne

end Sys2Proof.Machine

/-! ## Numbers beyond the command port -/

namespace Sys2Proof

/-- A number that fits the command port decodes as its 11-bit word (R38). -/
theorem decodeWord_of_lt {n : Nat} (h : n < 2 ^ 11) : decodeWord n = .ok (decode (BitVec.ofNat 11 n)) := if_pos h

/-- A number that does not fit the command port is refused by name (R19, R38). -/
theorem decodeWord_of_le {n : Nat} (h : 2 ^ 11 ≤ n) : decodeWord n = .error .beyondCommandPort := if_neg (Nat.not_lt.2 h)

/-- Settles O7: the table's decoder answers what `decodeWord` does on each side of 2^11. -/
theorem wordsBeyondThePortAreRefused : Obligations.WordsBeyondThePortAreRefused := by
  intro nbits n
  constructor
  · intro h
    exact ⟨decodeWord_of_le h, by rw [decodeTableWord, decodeWord_of_le h]⟩
  · intro h
    rw [decodeTableWord, decodeWord_of_lt h]

end Sys2Proof

/-! ## The invariant at power-up -/

namespace Sys2Proof.Safety

open Sys2Proof.Machine

/-- Every input port carries 0 at power-up, which fits it. -/
theorem inputsFit_reset : InputsFit State.reset := by
  intro k
  cases k <;> exact fitsPort_zero _

/-- Settles O10: the power-up state is its own step, and a step from words that fit the ports meets the invariant. -/
theorem resetMeetsTheInvariant : Obligations.ResetMeetsTheInvariant :=
  everyStepKeepsTheInvariant _ _ inputsFit_reset step_reset

end Sys2Proof.Safety

/-! ## What assembles -/

namespace Sys2Proof.Machine

variable {l : AsmLine} {op : WidthTag → Distance → Instr} {j : Distance} {x : Stimulus}

/-- The word a line puts on `in[k]`: its operand `k`, or 0 where it lists none (R43, R49). -/
def AsmLine.portWord (l : AsmLine) (k : Nat) : PortWord := BitVec.ofNat 64 (l.operands.getD k 0)

/-- Standing for another line changes no width (R50). -/
@[simp] theorem AsmLine.expand_width (l : AsmLine) : l.expand.width = l.width := by
  unfold AsmLine.expand
  split
  · split <;> rfl
  · split <;> rfl
  · rfl

/-- The names of the assembler are those of the seven operations (R40). -/
theorem operationNamed_cases {name : String} (h : operationNamed name = some op) :
    op = .a2bG ∨ op = .b2aG ∨ op = .secAnd ∨ op = .secXor ∨ op = .secShl ∨ op = .a2bKs ∨ op = .addKs := by
  unfold operationNamed at h
  split_ifs at h <;> cases h <;> simp

/-- A named operation is not the reserved one, and has the width it is given (R40, R45). -/
theorem selectsOperation_and_width_of_operationNamed {name : String} (h : operationNamed name = some op) (w : WidthTag)
    (j : Distance) : (op w j).selectsOperation = true ∧ (op w j).width = w := by
  obtain rfl | rfl | rfl | rfl | rfl | rfl | rfl := operationNamed_cases h <;> exact ⟨rfl, rfl⟩

/-- An operation that does not read a distance has the field 0 (R42, R49). -/
theorem AsmLine.distanceField_eq_zero (h : l.distanceField false = some j) : j = 0 := by
  unfold AsmLine.distanceField at h
  cases hd : l.distance with
  | none =>
    rw [hd] at h
    exact (Option.some.inj h).symm
  | some _ =>
    rw [hd] at h
    cases h

/-- Only SECSHL is given a distance, so a line's command is in its canonical spelling (R47, R49). -/
theorem canonicalDistance_of_distanceField {name : String} {w : WidthTag} (hop : operationNamed name = some op)
    (hj : l.distanceField (op w 0 == .secShl w 0) = some j) : (op w j).canonicalDistance = true := by
  obtain rfl | rfl | rfl | rfl | rfl | rfl | rfl := operationNamed_cases hop
  case inr.inr.inr.inr.inl => rfl
  all_goals
    obtain rfl : j = 0 := AsmLine.distanceField_eq_zero hj
    rfl

/-- What a line that assembles has, and what it assembles to: a named operation, a distance for it, as many operands as it
takes, each of which fits the width (R43, R49, R50). -/
theorem assemble_cases (h : l.assemble = some x) :
    ∃ op j, operationNamed l.expand.name = some op ∧
      l.expand.distanceField (op l.width 0 == .secShl l.width 0) = some j ∧
      l.expand.operands.length = Instr.arity (op l.width j) ∧ (∀ n ∈ l.expand.operands, n < 2 ^ l.width.bits) ∧
      x = ⟨encode (op l.width j), l.expand.portWord 0, l.expand.portWord 1, l.expand.portWord 2, l.expand.portWord 3,
        l.expand.portWord 4, l.expand.portWord 5⟩ := by
  unfold AsmLine.assemble at h
  simp only [AsmLine.expand_width] at h
  split at h
  · cases h
  next op hop =>
    split at h
    · cases h
    next j hj =>
      obtain ⟨⟨hlen, hfit⟩, hx⟩ := Option.ite_none_right_eq_some.1 h
      exact ⟨op, j, hop, hj, hlen, by simpa using hfit, (Option.some.inj hx).symm⟩

/-- When a line's operands fit a width, so does the word it puts on any port. -/
theorem AsmLine.portWord_lt {n : Nat} (h : ∀ v ∈ l.operands, v < 2 ^ n) (k : Nat) : (l.portWord k).toNat < 2 ^ n := by
  have hget : l.operands.getD k 0 < 2 ^ n := by
    rw [List.getD_eq_getElem?_getD]
    cases hk : l.operands[k]? with
    | none => exact Nat.two_pow_pos n
    | some v => exact h v (List.mem_of_getElem? hk)
  rw [AsmLine.portWord, BitVec.toNat_ofNat]
  exact (Nat.mod_le _ _).trans_lt hget

/-- Settles O60: the command word is that of a named operation with the distance its line may give it, and each port carries
an operand of the line or 0. -/
theorem assembledCommandsAreCanonical : Obligations.AssembledCommandsAreCanonical := by
  intro l x h
  obtain ⟨op, j, hop, hj, -, hfit, rfl⟩ := assemble_cases h
  obtain ⟨hselects, hwidth⟩ := selectsOperation_and_width_of_operationNamed hop l.width j
  rw [decode_encode]
  refine ⟨hselects, canonicalDistance_of_distanceField hop hj, hwidth, ?_⟩
  simp only [List.forall_mem_cons]
  exact ⟨AsmLine.portWord_lt hfit 0, AsmLine.portWord_lt hfit 1, AsmLine.portWord_lt hfit 2, AsmLine.portWord_lt hfit 3,
    AsmLine.portWord_lt hfit 4, AsmLine.portWord_lt hfit 5, List.forall_mem_nil _⟩

end Sys2Proof.Machine
